-- ==== Sys2Proof/Word.lean ====
section
/-! DEFINITION. Words: the block's one unit of data is the 8-bit byte (spec 00_scope.md R12, 30_encoding.md R70).
Every other value of the block is a natural number. -/

namespace Sys2Proof

/-- A byte: 8 bits, bit 7 the most significant (R12). -/
abbrev Byte := BitVec 8

end Sys2Proof
end

