-- ==== Sys2Proof/Config.lean ====
section
/-! DEFINITION. The named constants of the block (spec 00_scope.md R7 to R10), the build-time parameters the source
leaves open (R11), and the free values of the model (what the environment does where no input says so, and how characters are spelled). -/

namespace Sys2Proof

/-! ## Framing constants (R7) -/

/-- `HDR0`, the first header byte of both dialects. -/
abbrev hdr0 : Byte := 0xAA
/-- `HDR1`, the second header byte of both dialects. -/
abbrev hdr1 : Byte := 0xBB
/-- `T_LED1`, the dialect 1 LED-1BIT type. -/
abbrev tLed1 : Byte := 0x03
/-- `T_PING`, the dialect 1 PING type. -/
abbrev tPing : Byte := 0x05
/-- `T_INFO`, the dialect 1 INFO type. -/
abbrev tInfo : Byte := 0x06
/-- `T_LED8`, the dialect 2 LED (8-bit grayscale) type. -/
abbrev tLed8 : Byte := 0x01
/-- `HDR_LEN`, the bytes before the payload. -/
abbrev hdrLen : Nat := 3

/-! ## Geometry constants (R8) -/

/-- `W`, the logical matrix width. -/
abbrev matrixW : Nat := 32
/-- `H`, the logical matrix height. -/
abbrev matrixH : Nat := 64
/-- `NPIX = W * H`, the logical pixels. -/
abbrev npix : Nat := 2048
/-- `PANEL`, the edge of a panel. -/
abbrev panel : Nat := 16
/-- `NPANELS`, the panels tiling the matrix. No rule reads it. -/
abbrev npanels : Nat := 8
/-- `STRIP_LEN`, the pixels of one strip, in both dialects (decision D7). -/
abbrev stripLen : Nat := 1024
/-- `HALF = NPIX / 2`, the dialect 2 split point. -/
abbrev half : Nat := 1024
/-- `BITMAP_LEN = NPIX / 8`, the dialect 1 payload bytes. -/
abbrev bitmapLen : Nat := 256

/-! ## Length constants (R9) -/

/-- `LEN_PING`, a whole PING packet. -/
abbrev lenPing : Nat := 3
/-- `LEN_INFO`, a whole INFO packet. -/
abbrev lenInfo : Nat := 3
/-- `LEN_LED1 = 3 + 256`. -/
abbrev lenLed1 : Nat := 259
/-- `LEN_LED8 = 3 + W * H`. -/
abbrev lenLed8 : Nat := 2051
/-- `GUARD_LIMIT = 2 * LEN_LED8`, the dialect 2 overflow threshold. -/
abbrev guardLimit : Nat := 4102

/-! ## Timing (R10) -/

/-- `STALE_MS`, the staleness timeout in milliseconds. -/
abbrev staleMs : Nat := 2000
/-- `BAUD`, the serial bit rate. No rule depends on it (R272). -/
abbrev baud : Nat := 460800

/-! ## Parameters (R11) -/

/-- The two mutually exclusive options of the block (R2). A third value (I2, I22 of 93_implementation_defined.md) cannot be written. -/
inductive Dialect where
  | d1
  | d2
deriving DecidableEq, Repr

/-- `MAX_PKT`, the packet buffer's capacity in bytes (R9, R24). -/
def maxPkt : Dialect → Nat
  | .d1 => lenLed1
  | .d2 => lenLed8

/-- One text line of the reply channel (R33, R80). -/
abbrev Line := String

/-- The build-time parameters that the source leaves open (R11). They are data of the state that no step changes (R34). -/
structure Config where
  /-- `DIALECT`: which dialect is built (D2). -/
  dialect : Dialect
  /-- `RX_CAP`: receive FIFO capacity in bytes (D18). -/
  rxCap : Nat
  /-- `LINE_END`: the bytes that end each reply line on the wire (D11). -/
  lineEnd : List Byte
  /-- `INFO_LINES`: the INFO reply (D12). -/
  infoLines : List Line
  /-- `BANNER_LINES`: the startup banner (D13). -/
  bannerLines : List Line
  /-- `TIME_BITS`: the width of the stored time; `none` is `unbounded` (D15). -/
  timeBits : Option Nat
  /-- `GUARD_PER_BYTE` (D17). -/
  guardPerByte : Bool
  /-- `DRAIN_STOPS_AFTER_FRAME` (D20). -/
  drainStopsAfterFrame : Bool
  /-- `CNT_BITS`: the width of the byte-count register (D24). -/
  cntBits : Nat
deriving DecidableEq, Repr

/-- The configurations the spec admits: `RX_CAP` at least 1 (R11, I3), the last INFO line `"OK"` (R142, I6), `CNT_BITS` at least 12 (R23, I11).
The spec's treatment of any other is "refuse". -/
def Config.wf (c : Config) : Bool :=
  decide (1 ≤ c.rxCap) && (c.infoLines.getLast? == some "OK") && decide (12 ≤ c.cntBits)

/-- The configuration `State.reset` is built with: DESIGN CHOICE (log 2), the spec leaves every one of these open. No statement rests on it. -/
def Config.default : Config where
  dialect := .d1
  rxCap := 8192
  lineEnd := []
  infoLines := ["OK"]
  bannerLines := []
  timeBits := none
  guardPerByte := false
  drainStopsAfterFrame := false
  cntBits := 12

/-! ## Free values -/

/-- FREE VALUE (log 4): the milliseconds by which `now` grows before the `n`-th step of `LOOP` for which the input list says nothing.
R37 says only that `now` "may stay the same across steps or grow by any amount". It has no body: nothing can evaluate it. -/
opaque Config.freeAdvance : Nat → Nat

/-- FREE VALUE (log 4): the bytes the peer sends before that step of `LOOP`, each with the milliseconds by which `now` has grown when it arrives.
R201 says only that the peer chooses them and "may also send nothing at all"; they are finitely many, because `LOOP` takes infinitely many steps in
every infinite run (R208), but they need never end (R209). It has no body: nothing can evaluate it. -/
opaque Config.freeArrivals : Nat → List (Nat × Byte)

/-- FREE VALUE (log 12): the bytes that spell one character of a reply line on the wire. R80 says a line is spelled by "its characters";
the spec names no character code. It has no body. -/
opaque Config.charBytes : Char → List Byte

end Sys2Proof
end

