-- ==== Sys2Proof/Syntax.lean ====
section
/-! DEFINITION. The instructions of the block: one constructor for each of the 16 rows of spec/opcode_table.json
(30_encoding.md R70, R81), and the names of the framer states and packet types their rows speak of. -/

namespace Sys2Proof

/-- `S.pstate`, the four persistent framer states (R22). They have no binary encoding in any source (D24). -/
inductive PState where
  | awaitHeader0
  | awaitHeader1
  | awaitType
  | accumulating
deriving DecidableEq, Repr

/-- The type tag of a packet being accumulated (R25); `S.ptype = none` is `Option.none`. -/
inductive PType where
  | led1bit
  | led8
deriving DecidableEq, Repr

/-- The block's instructions. The first four are the packet commands (what a complete packet does, R141 to R144), with the payload as
operand; the others are the byte steps (what one byte does in one framer state, R102 to R112), with the byte as operand where the
row leaves it free. -/
inductive Instr where
  /-- row `PING` (R141): `AA BB 05`, dialect 1 -/
  | ping
  /-- row `INFO` (R142): `AA BB 06`, dialect 1 -/
  | info
  /-- row `LED1BIT` (R143): `AA BB 03` and the 256-byte bitmap, dialect 1 -/
  | led1bit (bm : Vector Byte bitmapLen)
  /-- row `LED8` (R144): `AA BB 01` and 2048 intensities, dialect 2 -/
  | led8 (g : Vector Byte npix)
  /-- row `H0.ACCEPT` (R102): `0xAA` in `AWAIT_HEADER_0` -/
  | h0Accept
  /-- row `H0.DISCARD` (R103): any other byte in `AWAIT_HEADER_0` -/
  | h0Discard (b : Byte)
  /-- row `H1.ACCEPT` (R104): `0xBB` in `AWAIT_HEADER_1` -/
  | h1Accept
  /-- row `H1.RESET` (R105): any other byte in `AWAIT_HEADER_1` -/
  | h1Reset (b : Byte)
  /-- row `T1.PING` (R106): `0x05` in `AWAIT_TYPE`, dialect 1 -/
  | t1Ping
  /-- row `T1.INFO` (R106): `0x06` in `AWAIT_TYPE`, dialect 1 -/
  | t1Info
  /-- row `T1.LED1` (R107): `0x03` in `AWAIT_TYPE`, dialect 1 -/
  | t1Led1
  /-- row `T1.RESET` (R108): any other byte in `AWAIT_TYPE`, dialect 1 -/
  | t1Reset (b : Byte)
  /-- row `T2.LED8` (R109): `0x01` in `AWAIT_TYPE`, dialect 2 -/
  | t2Led8
  /-- row `T2.RESET` (R110): any other byte in `AWAIT_TYPE`, dialect 2 -/
  | t2Reset (b : Byte)
  /-- row `ACC.APPEND` (R111): any byte in `ACCUMULATING` with `count < EXP` -/
  | accAppend (b : Byte)
  /-- row `ACC.BOUND` (R112): any byte in `ACCUMULATING` with `count ≥ EXP` -/
  | accBound (b : Byte)
deriving DecidableEq, Repr

end Sys2Proof
end

