-- ==== Sys2Proof/WellFormed.lean ====
section
/-! DEFINITION. Well-formed instructions. A fallback row's byte is one that no exact row of its state takes
(30_encoding.md R81(b): "a decoder tries the exact rows first and the fallback row last"). The payload lengths of
`led1bit` and `led8` are in their types (R75, R76). -/

namespace Sys2Proof

/-- The operand of a fallback row is a byte that no exact row of the same (dialect, state) takes (R103, R105, R108, R110). -/
def Instr.wellFormed : Instr → Bool
  | .h0Discard b => b != hdr0
  | .h1Reset b => b != hdr1
  | .t1Reset b => b != tLed1 && b != tPing && b != tInfo
  | .t2Reset b => b != tLed8
  | .ping => true
  | .info => true
  | .led1bit _ => true
  | .led8 _ => true
  | .h0Accept => true
  | .h1Accept => true
  | .t1Ping => true
  | .t1Info => true
  | .t1Led1 => true
  | .t2Led8 => true
  | .accAppend _ => true
  | .accBound _ => true

end Sys2Proof
end

