-- ==== Sys2Proof/Decode.lean ====
section
/-! DEFINITION. The decoder and the encoder. A BYTE STEP is decoded from one byte in the framer's context (40_framer.md R100:
total, one row for every byte and state); a PACKET COMMAND from a stream of bytes in a dialect (30_encoding.md R71 to R78),
rejecting by name. The rows of spec/opcode_table.json stand here as data (R81), and the encoder is written from them. -/

namespace Sys2Proof

/-- `EXP(ptype)`, the expected total of the packet being accumulated (R23). The spec gives none for `none`; 0 makes every byte of such
a state (which no run reaches, R25) fall under the defensive bound (DESIGN CHOICE, log 7). -/
def expTotal : Option PType → Nat
  | some .led1bit => lenLed1
  | some .led8 => lenLed8
  | none => 0

/-! ## Byte steps -/

/-- What the decoding of a byte depends on: the dialect and the framer registers (R100). -/
structure Ctx where
  dialect : Dialect
  pstate : PState
  count : Nat
  ptype : Option PType
deriving DecidableEq, Repr

/-- The dispatch of `Step(S, b)` (R100): exactly one row for every context and byte. -/
def decodeByte (c : Ctx) (b : Byte) : Instr :=
  match c.pstate with
  | .awaitHeader0 => if b = hdr0 then .h0Accept else .h0Discard b
  | .awaitHeader1 => if b = hdr1 then .h1Accept else .h1Reset b
  | .awaitType =>
    match c.dialect with
    | .d1 =>
      if b = tPing then .t1Ping
      else if b = tInfo then .t1Info
      else if b = tLed1 then .t1Led1
      else .t1Reset b
    | .d2 => if b = tLed8 then .t2Led8 else .t2Reset b
  | .accumulating => if c.count ≥ expTotal c.ptype then .accBound b else .accAppend b

/-! ## Packets -/

/-- Why a stream of bytes is no packet of a dialect. -/
inductive DecodeError where
  /-- The stream ends inside the packet. -/
  | truncated
  /-- The first byte is not `HDR0` (R79). -/
  | badHeader0 (b : Byte)
  /-- The second byte is not `HDR1` (R79). -/
  | badHeader1 (b : Byte)
  /-- The type byte is none of the dialect's (R78). -/
  | badType (d : Dialect) (b : Byte)
deriving DecidableEq, Repr

/-- A list of exactly `n` bytes as a vector. -/
def toVec (n : Nat) (l : List Byte) : Option (Vector Byte n) :=
  if h : l.length = n then some ⟨l.toArray, by simp [h]⟩ else none

/-- The first `n` bytes of a stream, and the rest. -/
def takeVec (n : Nat) (l : List Byte) : Option (Vector Byte n × List Byte) :=
  match toVec n (l.take n) with
  | some v => some (v, l.drop n)
  | none => none

/-- The packet that a dialect's type byte begins, with its payload taken from the stream (R72, R73, R74). -/
def decodeBody : Dialect → Byte → List Byte → Except DecodeError (Instr × List Byte)
  | .d1, t, rest =>
    if t = tPing then .ok (.ping, rest)
    else if t = tInfo then .ok (.info, rest)
    else if t = tLed1 then
      match takeVec bitmapLen rest with
      | some (bm, more) => .ok (.led1bit bm, more)
      | none => .error .truncated
    else .error (.badType .d1 t)
  | .d2, t, rest =>
    if t = tLed8 then
      match takeVec npix rest with
      | some (g, more) => .ok (.led8 g, more)
      | none => .error .truncated
    else .error (.badType .d2 t)

/-- The packet at the front of a stream, and the bytes after it (R71 to R74). -/
def decodePacket (d : Dialect) : List Byte → Except DecodeError (Instr × List Byte)
  | [] => .error .truncated
  | b0 :: r0 =>
    if b0 ≠ hdr0 then .error (.badHeader0 b0)
    else match r0 with
      | [] => .error .truncated
      | b1 :: r1 =>
        if b1 ≠ hdr1 then .error (.badHeader1 b1)
        else match r1 with
          | [] => .error .truncated
          | t :: rest => decodeBody d t rest

/-! ## The encoder -/

/-- The bytes of an instruction: a whole packet (R71 to R73, R75, R76), or the one byte of a byte step (R81(b)). -/
def encode : Instr → List Byte
  | .ping => [hdr0, hdr1, tPing]
  | .info => [hdr0, hdr1, tInfo]
  | .led1bit bm => hdr0 :: hdr1 :: tLed1 :: bm.toList
  | .led8 g => hdr0 :: hdr1 :: tLed8 :: g.toList
  | .h0Accept => [hdr0]
  | .h0Discard b => [b]
  | .h1Accept => [hdr1]
  | .h1Reset b => [b]
  | .t1Ping => [tPing]
  | .t1Info => [tInfo]
  | .t1Led1 => [tLed1]
  | .t1Reset b => [b]
  | .t2Led8 => [tLed8]
  | .t2Reset b => [b]
  | .accAppend b => [b]
  | .accBound b => [b]

/-- The dialect a packet command belongs to (R140); `none` for a byte step. -/
def packetDialect : Instr → Option Dialect
  | .ping => some .d1
  | .info => some .d1
  | .led1bit _ => some .d1
  | .led8 _ => some .d2
  | .h0Accept => none
  | .h0Discard _ => none
  | .h1Accept => none
  | .h1Reset _ => none
  | .t1Ping => none
  | .t1Info => none
  | .t1Led1 => none
  | .t1Reset _ => none
  | .t2Led8 => none
  | .t2Reset _ => none
  | .accAppend _ => none
  | .accBound _ => none

/-! ## The pseudo-packets of the byte-stream notation (R82) -/

/-- `LED1.BLANK`. -/
def led1Blank : Instr := .led1bit (Vector.replicate bitmapLen 0)

/-- `LED1.PIXEL x, y`: the bit of logical pixel `32y + x` and no other. -/
def led1Pixel (x y : Nat) : Instr :=
  .led1bit ((Vector.replicate bitmapLen (0 : Byte)).setIfInBounds ((32 * y + x) / 8) (1 <<< (7 - (32 * y + x) % 8)))

/-- `LED1.FULL`. -/
def led1Full : Instr := .led1bit (Vector.replicate bitmapLen 0xFF)

/-- `LED8.FILL v`. -/
def led8Fill (v : Byte) : Instr := .led8 (Vector.replicate npix v)

/-- `LED8.SPLIT a, b`. -/
def led8Split (a b : Byte) : Instr := .led8 (Vector.replicate half a ++ Vector.replicate half b)

/-! ## The opcode table as data (R81) -/

/-- A packet row of spec/opcode_table.json: match and mask over the 24 bits of offsets 0 to 2, offset 0 the most significant byte, and the
total length (R81(a), R9). -/
structure PacketRow where
  mnemonic : String
  dialect : Dialect
  mtch : BitVec 24
  mask : BitVec 24
  total : Nat
deriving DecidableEq, Repr

/-- The four packet rows, in the table's order. -/
def packetRows : List PacketRow :=
  [ ⟨"PING", .d1, 0xAABB05, 0xFFFFFF, 3⟩,
    ⟨"INFO", .d1, 0xAABB06, 0xFFFFFF, 3⟩,
    ⟨"LED1BIT", .d1, 0xAABB03, 0xFFFFFF, 259⟩,
    ⟨"LED8", .d2, 0xAABB01, 0xFFFFFF, 2051⟩ ]

/-- The number of a packet's first three bytes, `b0 * 2^16 + b1 * 2^8 + b2` (R81(a)). -/
def headWord : List Byte → Option (BitVec 24)
  | b0 :: b1 :: b2 :: _ => some (b0 ++ b1 ++ b2)
  | _ => none

/-- The state condition of a byte-step row (`fields.condition`). -/
inductive RowCond where
  | always
  | belowExp
  | atExp
deriving DecidableEq, Repr

/-- A byte-step row of spec/opcode_table.json; `dialect = none` is "both". -/
structure ByteRow where
  mnemonic : String
  dialect : Option Dialect
  pstate : PState
  mtch : Byte
  mask : Byte
  cond : RowCond
  fallback : Bool
deriving DecidableEq, Repr

/-- The twelve byte-step rows, in the table's order. -/
def byteRows : List ByteRow :=
  [ ⟨"H0.ACCEPT", none, .awaitHeader0, 0xAA, 0xFF, .always, false⟩,
    ⟨"H0.DISCARD", none, .awaitHeader0, 0x00, 0x00, .always, true⟩,
    ⟨"H1.ACCEPT", none, .awaitHeader1, 0xBB, 0xFF, .always, false⟩,
    ⟨"H1.RESET", none, .awaitHeader1, 0x00, 0x00, .always, true⟩,
    ⟨"T1.PING", some .d1, .awaitType, 0x05, 0xFF, .always, false⟩,
    ⟨"T1.INFO", some .d1, .awaitType, 0x06, 0xFF, .always, false⟩,
    ⟨"T1.LED1", some .d1, .awaitType, 0x03, 0xFF, .always, false⟩,
    ⟨"T1.RESET", some .d1, .awaitType, 0x00, 0x00, .always, true⟩,
    ⟨"T2.LED8", some .d2, .awaitType, 0x01, 0xFF, .always, false⟩,
    ⟨"T2.RESET", some .d2, .awaitType, 0x00, 0x00, .always, true⟩,
    ⟨"ACC.APPEND", none, .accumulating, 0x00, 0x00, .belowExp, false⟩,
    ⟨"ACC.BOUND", none, .accumulating, 0x00, 0x00, .atExp, false⟩ ]

/-- A row's state condition holds in a context. -/
def RowCond.holds : RowCond → Ctx → Bool
  | .always, _ => true
  | .belowExp, c => decide (c.count < expTotal c.ptype)
  | .atExp, c => decide (expTotal c.ptype ≤ c.count)

/-- A row's dialect, state, condition and byte pattern all fit. -/
def ByteRow.fits (r : ByteRow) (c : Ctx) (b : Byte) : Bool :=
  (r.dialect == none || r.dialect == some c.dialect) && r.pstate == c.pstate && r.cond.holds c && (b &&& r.mask) == r.mtch

/-- The row that applies: an exact row that fits, else the fallback row that fits (R81(b)). -/
def rowFor (c : Ctx) (b : Byte) : Option ByteRow :=
  (byteRows.find? fun r => !r.fallback && r.fits c b).or (byteRows.find? fun r => r.fallback && r.fits c b)

/-- An instruction's row of spec/opcode_table.json, by its mnemonic. -/
def Instr.mnemonic : Instr → String
  | .ping => "PING"
  | .info => "INFO"
  | .led1bit _ => "LED1BIT"
  | .led8 _ => "LED8"
  | .h0Accept => "H0.ACCEPT"
  | .h0Discard _ => "H0.DISCARD"
  | .h1Accept => "H1.ACCEPT"
  | .h1Reset _ => "H1.RESET"
  | .t1Ping => "T1.PING"
  | .t1Info => "T1.INFO"
  | .t1Led1 => "T1.LED1"
  | .t1Reset _ => "T1.RESET"
  | .t2Led8 => "T2.LED8"
  | .t2Reset _ => "T2.RESET"
  | .accAppend _ => "ACC.APPEND"
  | .accBound _ => "ACC.BOUND"

/-! ## The table's words -/

/-- A word of the table as bytes in the order they are sent: the FIRST byte is the most significant
(R81(a): a packet row's number is `b0 * 2^16 + b1 * 2^8 + b2`). A word of up to 8 bits is one byte. -/
def wordBytes : Nat → Nat → List Byte
  | 0, _ => []
  | n + 1, w => BitVec.ofNat 8 (w / 256 ^ n) :: wordBytes n w

/-- The bytes already accepted before a bare byte of a byte-step row, and the dialect, so that the byte meets the row it is named by: an
exact row's byte meets its own state; 0x02 and 0x04 (the bits at which the table's reader put the field `dialect` of rows T1.RESET and
T2.RESET) meet `AWAIT_TYPE` of dialect 1 and 2; any other byte meets the reset state (DESIGN CHOICE, log 9). -/
def byteSetting (b : Byte) : Dialect × List Byte :=
  if b = hdr1 then (.d1, [hdr0])
  else if b = tPing ∨ b = tInfo ∨ b = tLed1 ∨ b = 0x02 then (.d1, [hdr0, hdr1])
  else if b = tLed8 ∨ b = 0x04 then (.d2, [hdr0, hdr1])
  else (.d1, [])

/-- The packet of a 24-bit packet row in whichever dialect has it, with a payload of zeros (the bits above the row's are 0). -/
def wordPacket (bytes : List Byte) : Option (Dialect × Instr) :=
  match decodePacket .d1 (bytes ++ List.replicate bitmapLen 0) with
  | .ok (i, _) => some (.d1, i)
  | .error _ =>
    match decodePacket .d2 (bytes ++ List.replicate npix 0) with
    | .ok (i, _) => some (.d2, i)
    | .error _ => none

/-- How a word of the table is laid before the framer: the dialect, the bytes the framer has already accepted, and the byte it meets
next. A byte-step word is its byte; a packet word is the whole packet, its last byte next (a packet command takes effect at
the byte that completes it, 41_packet_commands.md); a word that is no packet is its first byte, met in the reset state. -/
def wordSetting (nbits w : Nat) : Dialect × List Byte × Byte :=
  if nbits ≤ 8 then
    let b := BitVec.ofNat 8 w
    let (d, before) := byteSetting b
    (d, before, b)
  else
    let bytes := wordBytes ((nbits + 7) / 8) w
    match wordPacket bytes with
    | some (d, i) => (d, (encode i).dropLast, (encode i).getLastD 0)
    | none => (.d1, [], bytes.headD 0)

/-- The type tag that the third byte of an LED packet sets (R107, R109). -/
def ptypeOf (t : Byte) : Option PType :=
  if t = tLed1 then some .led1bit else if t = tLed8 then some .led8 else none

/-- The framer registers when the bytes of `before`, the beginning of one packet, have been accepted (R23, R25). -/
def ctxAfter (d : Dialect) : List Byte → Ctx
  | [] => ⟨d, .awaitHeader0, 0, none⟩
  | [_] => ⟨d, .awaitHeader1, 1, none⟩
  | [_, _] => ⟨d, .awaitType, 2, none⟩
  | _ :: _ :: t :: more => ⟨d, .accumulating, 3 + more.length, ptypeOf t⟩

/-- The instruction the decoder reads from a word of spec/opcode_table.json: a byte step for a word of up to 8 bits, a packet command for a
longer one. -/
def decodeTableWord (nbits w : Nat) : Option Instr :=
  if nbits ≤ 8 then
    let (d, before, b) := wordSetting nbits w
    some (decodeByte (ctxAfter d before) b)
  else (wordPacket (wordBytes ((nbits + 7) / 8) w)).map (·.2)

end Sys2Proof
end

