-- ==== Sys2Proof/Machine/State.lean ====
section
/-! DEFINITION. The state of the block (10_state.md R20 to R38): the nine architectural fields of R20, the two output channels
(R33), the build-time configuration (R34), and the environment's inputs (R37, R200): the current time, and the moves of the peer and of the
loop still to come. Everything is plain data. -/

namespace Sys2Proof.Machine

/-- The packet buffer's storage (R24, R50): the bytes written, each at its offset, offsets strictly rising. An offset that is not
listed holds no value: what it holds is unspecified and never read (R36, R38; D25), so reading it is a fault (log 5). -/
abbrev Memory := List Host.Cell

/-- The canonical form: offsets strictly rising. (No entry can equal what an unlisted offset reads as, which is no value.) -/
def Memory.wf : Memory → Bool
  | [] => true
  | [_] => true
  | (a, _) :: (b, y) :: m => decide (a < b) && Memory.wf ((b, y) :: m)

/-- A pixel: three 8-bit channels (R27), in the order r, g, b (R53). -/
structure Pixel where
  r : Byte
  g : Byte
  b : Byte
deriving DecidableEq, Repr

/-- `BLACK` (R10). -/
abbrev black : Pixel := ⟨0, 0, 0⟩

/-- `WHITE` (R10). -/
abbrev white : Pixel := ⟨255, 255, 255⟩

/-- The two physical lines, each with its strip (R28, R33). -/
inductive Strip where
  | left
  | right
deriving DecidableEq, Repr

/-- The frame buffer (R28): `S.left` and `S.right`, in both dialects; pixel `i` of a strip is element `i` of its list. -/
structure FrameBuffer where
  left : List Pixel
  right : List Pixel
deriving DecidableEq, Repr

/-- Each strip holds 1024 pixels (R28). Every operation keeps it (Laws/Strips.lean). -/
def FrameBuffer.wf (fb : FrameBuffer) : Bool := fb.left.length == stripLen && fb.right.length == stripLen

/-- Both strips all `BLACK` (R36, R162). -/
def FrameBuffer.blank : FrameBuffer where
  left := List.replicate stripLen black
  right := List.replicate stripLen black

/-- `S.phase`, the control loop's position (R32). -/
inductive Phase where
  | guard
  | drain
  | stale
  | yield
deriving DecidableEq, Repr

/-- An event of the sink channel (R33): both strips whole, or the staleness clear. -/
inductive SinkEvent where
  | emit (fb : FrameBuffer)
  | clear
deriving DecidableEq, Repr

/-- One input of the environment (R37, R200, R201): which agent moves next, and by how many milliseconds `now` has grown when it does.
A time that never decreases (R37) is a sequence of natural increments. -/
inductive Move where
  /-- `LOOP` takes its next step. -/
  | loop (dt : Nat)
  /-- `PEER` sends byte `b` (R201). -/
  | arrive (dt : Nat) (b : Byte)
deriving DecidableEq, Repr

/-- The machine's state. -/
structure State where
  /-- the build-time configuration (R34), which no step changes -/
  cfg : Config
  /-- `S.pstate` (R22) -/
  pstate : PState
  /-- `S.count` (R23) -/
  count : Nat
  /-- `S.ptype` (R25) -/
  ptype : Option PType
  /-- `S.pkt` (R24) -/
  pkt : Memory
  /-- `S.left` and `S.right` (R28) -/
  fb : FrameBuffer
  /-- `S.last_frame` (R30) -/
  lastFrame : Option Nat
  /-- `S.rx`, oldest byte first (R31) -/
  rx : List Byte
  /-- `S.phase` (R32) -/
  phase : Phase
  /-- `LOOP`'s place inside one pass of the drain's body (R6, R205; log 10): the guard check before the next byte has been made, and its `pop` has not -/
  guardChecked : Bool
  /-- the reply channel `TX`, oldest line first (R33) -/
  tx : List Line
  /-- the sink channel `SINK`, oldest event first (R33) -/
  sink : List SinkEvent
  /-- the time input `now` at the latest step (R37) -/
  now : Nat
  /-- the environment's coming moves, next first (log 3); where none is listed they are free values (log 4) -/
  sched : List Move
  /-- THE MODEL'S OWN (log 4): how many rounds of free moves have been drawn -/
  freeIx : Nat
deriving DecidableEq, Repr

/-- The faults. The block itself raises none (R230). -/
inductive Fault where
  /-- A read of the packet buffer at an offset that holds no byte of the current packet (R38, I14: "it should fault rather than return a
  value"). Raised by a completing ACC.APPEND only, in states no run reaches. Safe: the model stops. -/
  | pktUnwritten
deriving DecidableEq, Repr

/-- The refusals. -/
inductive Refusal where
  /-- An instruction with no meaning yet, by its mnemonic. No arm of `exec` answers it. Safe. -/
  | notModelled (mnemonic : String)
  /-- The configuration is one the spec says to refuse (I3, I6, I11 of 93_implementation_defined.md). Raised by `step`. Safe. -/
  | badConfig
deriving DecidableEq, Repr

/-- The machine right after reset in configuration `c` (R36, R260, R261): the banner lines are on `TX`, nothing is on `SINK`. `now = 0`
and the empty input list are the model's choice (log 3). -/
def State.resetOf (c : Config) : State where
  cfg := c
  pstate := .awaitHeader0
  count := 0
  ptype := none
  pkt := []
  fb := .blank
  lastFrame := none
  rx := []
  phase := .guard
  guardChecked := false
  tx := c.bannerLines
  sink := []
  now := 0
  sched := []
  freeIx := 0

/-- The machine right after reset, in the default configuration (log 2). -/
def State.reset : State := State.resetOf Config.default

end Sys2Proof.Machine
end

