-- ==== Sys2Proof/Machine/Ops.lean ====
section
/-! DEFINITION. The named operations over the storage spaces and the output channels (00_scope.md R13, R14; 20_memory.md R50 to R60;
42_pixel_mapper.md R161 to R163), and the one operation the block has in the place of an exception: `ParserReset`
(40_framer.md R101; 60_exceptions.md R230, R234, R235: no trap entry, no trap return, nothing saved). -/

namespace Sys2Proof.Machine

/-! ## The packet buffer (space `PKT`) -/

/-- The byte at an offset, if one has been written (R13 `MemRead(PKT, i, 1)`). -/
def Memory.read : Memory → Nat → Option Byte
  | [], _ => none
  | (a, x) :: m, i => if a = i then some x else Memory.read m i

/-- Write the byte at an offset (R13 `MemWrite(PKT, i, 1, b)`), keeping the offsets rising. -/
def Memory.write : Memory → Nat → Byte → Memory
  | [], i, b => [(i, b)]
  | (a, x) :: m, i, b =>
    if i < a then (i, b) :: (a, x) :: m
    else if i = a then (i, b) :: m
    else (a, x) :: Memory.write m i b

/-- The `n` bytes at offsets `i, i + 1, …`, if all have been written, in one pass over the rising offsets. -/
def Memory.readRun : Memory → Nat → Nat → Option (List Byte)
  | _, _, 0 => some []
  | [], _, _ + 1 => none
  | (a, x) :: m, i, n + 1 =>
    if a < i then Memory.readRun m i (n + 1)
    else if a = i then (Memory.readRun m (i + 1) n).map (x :: ·)
    else none

/-- The cells that hold the bytes `bs` from offset `i` on. -/
def Memory.cellsFrom : Nat → List Byte → Memory
  | _, [] => []
  | i, b :: bs => (i, b) :: Memory.cellsFrom (i + 1) bs

/-- `MemWrite(PKT, i, 1, b)` on the state. Its callers keep `i < MAX_PKT` (R58). -/
def State.pktWrite (i : Nat) (b : Byte) (s : State) : State :=
  { s with pkt := s.pkt.write i b }

/-- The packet's payload: the bytes at offsets `3 .. 3 + n − 1`, each of them below `count` (R38). -/
def State.payload (n : Nat) (s : State) : Option (Vector Byte n) :=
  if hdrLen + n ≤ s.count then
    match s.pkt.readRun hdrLen n with
    | some l => toVec n l
    | none => none
  else none

/-- Accept the next byte of the packet: write it at `count` and count it (R102, R104, R106, R107, R109, R111). -/
def State.accept (i : Nat) (b : Byte) (s : State) : State :=
  { s.pktWrite i b with count := i + 1 }

/-! ## ParserReset -/

/-- The ghost tags of the silent actions (R231). No rule reads one. -/
inductive Cause where
  | discHdr0
  | srHdr1
  | srType
  | srBound
  | srGuard
  | srDone
  | dropIndex
  | dropGeom
  | rxLost
deriving DecidableEq, Repr

/-- `ParserReset(cause)` (R101): the framer returns to its start. The packet buffer's contents are unspecified afterwards and never read: here
no offset holds a value (log 5). The tag has no effect. -/
def parserReset (_cause : Cause) (s : State) : State :=
  { s with pstate := .awaitHeader0, count := 0, ptype := none, pkt := [] }

/-! ## The output channels (R14, R33) -/

/-- `tx(line)`. -/
def State.txLine (l : Line) (s : State) : State := { s with tx := s.tx ++ [l] }

/-- `for line in lines: tx(line)`. -/
def State.txLines (ls : List Line) (s : State) : State := ls.foldl (fun t l => t.txLine l) s

/-- `sink(ev)`. -/
def State.sinkEvent (e : SinkEvent) (s : State) : State := { s with sink := s.sink ++ [e] }

/-- A line's spelling on the wire: its characters followed by `LINE_END` (R80); the characters' bytes are a free value (log 12). -/
def wireLine (c : Config) (l : Line) : List Byte := l.toList.flatMap Config.charBytes ++ c.lineEnd

/-- The reply channel as bytes on the serial link (R33(a), R80). -/
def State.txWire (s : State) : List Byte := s.tx.flatMap (wireLine s.cfg)

/-! ## The strips (spaces `LEFT` and `RIGHT`) -/

/-- One strip of the frame buffer. -/
def FrameBuffer.strip (fb : FrameBuffer) : Strip → List Pixel
  | .left => fb.left
  | .right => fb.right

/-- `MemRead(s, i, 1)` on a strip: the pixel at an index, none outside the strip. -/
def FrameBuffer.pixel (fb : FrameBuffer) (st : Strip) (i : Nat) : Option Pixel := (fb.strip st)[i]?

/-- `SetPixel` (R161): a whole pixel is written (R55(c)); an index outside the strip is silently ignored (R57). -/
def FrameBuffer.setPixel (fb : FrameBuffer) (st : Strip) (i : Nat) (p : Pixel) : FrameBuffer :=
  if i < stripLen then
    match st with
    | .left => { fb with left := fb.left.set i p }
    | .right => { fb with right := fb.right.set i p }
  else fb

/-- `ClearStrips` (R162): all 2048 pixels `BLACK`. Laws/Strips.lean proves it equal to the rule's loop of pixel writes. -/
def FrameBuffer.clearStrips (_fb : FrameBuffer) : FrameBuffer := .blank

/-- `Emit` (R163): one event with a snapshot of both strips (R60). -/
def State.emit (s : State) : State := s.sinkEvent (.emit s.fb)

/-- The LEDController's 2048-pixel view, `left ++ right` (R29, D8). No rule of the block uses it. -/
def FrameBuffer.controllerView (fb : FrameBuffer) : List Pixel := fb.left ++ fb.right

/-- A write through the 2048-pixel view (R29): an index of 2048 or more is ignored. -/
def FrameBuffer.controllerSet (fb : FrameBuffer) (k : Nat) (p : Pixel) : FrameBuffer :=
  if k < stripLen then fb.setPixel .left k p else fb.setPixel .right (k - stripLen) p

/-! ## The control loop's position and the receive FIFO -/

/-- `S.phase <- p`. -/
def State.setPhase (p : Phase) (s : State) : State := { s with phase := p }

/-- `S.rx <- q`: what is left after a discard (R203) or an arrival (R201). -/
def State.setRx (q : List Byte) (s : State) : State := { s with rx := q }

/-- `pop()` (R14, R56): `rest` is left in the FIFO, and the next byte's guard check is still to come (R204). -/
def State.pop (rest : List Byte) (s : State) : State := { s with rx := rest, guardChecked := false }

/-- The guard check before the next byte has been made, and discarded nothing (R204). -/
def State.passGuard (s : State) : State := { s with guardChecked := true }

/-! ## Time (R37, R237) -/

/-- The value of a time as it is stored: modulo `2^TIME_BITS` when the width is finite (R237). -/
def stamp (c : Config) (now : Nat) : Nat :=
  match c.timeBits with
  | none => now
  | some n => now % 2 ^ n

/-- `elapsed(now, t)` (R237): computed in the integers, then taken modulo `2^TIME_BITS`. When the width is unbounded `now ≥ t` always (R37). -/
def elapsed (c : Config) (now t : Nat) : Nat :=
  match c.timeBits with
  | none => now - t
  | some n => (((stamp c now : Int) - (t : Int)) % (2 ^ n : Nat)).toNat

end Sys2Proof.Machine
end

