-- ==== Sys2Proof/Machine/Operands.lean ====
section
/-! DEFINITION. The two operand forms (30_encoding.md R75, R76, R77): one bit that selects `WHITE`, and a byte replicated into the
three channels. No immediates, no sign extension, no scaling, no register fields. -/

namespace Sys2Proof.Machine

/-- Byte `i` of a payload. (The second argument of `getD` is never read: every caller has `i` below the length.) -/
def payloadByte {n : Nat} (v : Vector Byte n) (i : Nat) : Byte := v.toList.getD i 0

/-- `BitmapBit(bm, p)` (R52, R75, R164): bit `7 − (p mod 8)` of byte `p / 8`, most significant bit first. -/
def bitmapBit (bm : Vector Byte bitmapLen) (p : Nat) : Bool := (payloadByte bm (p / 8)).getLsbD (7 - p % 8)

/-- `(v, v, v)`: a grayscale byte in every channel, with no scaling, gamma or clamping (R76). -/
def gray (v : Byte) : Pixel := ⟨v, v, v⟩

end Sys2Proof.Machine
end

