-- ==== Sys2Proof/Machine/Flags.lean ====
section
/-! DEFINITION. The block has no condition codes or status flags (10_state.md R35): two predicates are derived from the state, and no
operation sets a flag. -/

namespace Sys2Proof.Machine

/-- `active(S) ≡ S.pstate ≠ AWAIT_HEADER_0` (R23), the source's "active" flag. -/
def State.active (s : State) : Bool := s.pstate != .awaitHeader0

/-- "A last-frame-time is recorded": `S.last_frame ≠ none` (R35). -/
def State.frameRecorded (s : State) : Bool := s.lastFrame.isSome

end Sys2Proof.Machine
end

