-- ==== Sys2Proof/Machine/Mapper.lean ====
section
/-! DEFINITION. The payload-to-pixel mapper (42_pixel_mapper.md R160 to R175): the dialect 1 geometry, the two renderers. -/

namespace Sys2Proof.Machine

/-- `LineOf(x)` (R166): the left half of the screen goes to the right line. -/
def lineOf (x : Nat) : Strip := if x < 16 then .right else .left

/-- `ExpectedColumn(line)` (R167). -/
def expectedColumn : Strip → Nat
  | .right => 0
  | .left => 1

/-- `Geom(x, y, line)` (R168): the panel transform; `none` outside the matrix (D23) and for the wrong panel column. -/
def geom (x y : Nat) (line : Strip) : Option Nat :=
  if x ≥ matrixW ∨ y ≥ matrixH then none
  else if x / panel ≠ expectedColumn line then none
  else
    let localXm := 15 - x % 16
    let panelRow := y / 16
    let localY := y % 16
    let offset := panelRow * 256
    let within := if localY % 2 = 1 then localY * 16 + (15 - localXm) else localY * 16 + localXm
    some (offset + within)

/-- The inverse map (R173): the logical pixel that LED index `i` of a line shows. No rule uses it. -/
def pixelAt (line : Strip) (i : Nat) : Nat × Nat :=
  let panelRow := i / 256
  let localY := i % 256 / 16
  let k := i % 16
  let xm := if localY % 2 = 0 then 15 - k else k
  (xm + (match line with | .right => 0 | .left => 16), 16 * panelRow + localY)

/-- One pass of the body of `Render1`'s loop, for logical pixel `p` (R169, Steps 3 to 5): a set bit lights its pixel; a clear bit
writes nothing; `none` drops the pixel. -/
def lightPixel (bm : Vector Byte bitmapLen) (fb : FrameBuffer) (p : Nat) : FrameBuffer :=
  let x := p % matrixW
  let y := p / matrixW
  let line := lineOf x
  match bitmapBit bm p, geom x y line with
  | true, some i => fb.setPixel line i white
  | true, none => fb
  | false, _ => fb

/-- The strips after Steps 1 to 5 of `Render1` (R169). (Irreducible, so that no check by unfolding runs its 2048 passes.) -/
@[irreducible] def render1 (bm : Vector Byte bitmapLen) (fb : FrameBuffer) : FrameBuffer :=
  (List.range npix).foldl (lightPixel bm) fb.clearStrips

/-- The strips after the loop of `Render8` (R170): intensity `i < 1024` is pixel `i` of the left strip, intensity `1024 + j` is pixel `j`
of the right strip; every pixel is written, so nothing of the previous frame is left. Laws/Strips.lean proves it equal to the rule's
loop of pixel writes. (Irreducible for the same reason.) -/
@[irreducible] def render8 (g : Vector Byte npix) (_fb : FrameBuffer) : FrameBuffer where
  left := (g.toList.take half).map gray
  right := (g.toList.drop half).map gray

/-- `Render1(bm)` (R169): map, then emit once (Step 6). `S.last_frame` is not written (R143). -/
def State.render1 (bm : Vector Byte bitmapLen) (s : State) : State :=
  { s with fb := Machine.render1 bm s.fb }.emit

/-- `Render8(g)` (R170): map, emit once, then record the current time (D22). -/
def State.render8 (g : Vector Byte npix) (s : State) : State :=
  { { s with fb := Machine.render8 g s.fb }.emit with lastFrame := some (stamp s.cfg s.now) }

end Sys2Proof.Machine
end

