-- ==== Sys2Proof/Machine/Packet.lean ====
section
/-! DEFINITION. The packet commands (41_packet_commands.md R140 to R146): what a complete packet does. A command takes effect inside the
byte step that completes its packet (Machine/Framer.lean). -/

namespace Sys2Proof.Machine

/-- `DoPing` (R141). -/
def doPing (s : State) : State := s.txLine "PONG"

/-- `DoInfo` (R142). -/
def doInfo (s : State) : State := s.txLines s.cfg.infoLines

/-- What belongs to dialect `d` only: in the other dialect its type byte is illegal and the framer resets silently, with no reply, no
frame and no other effect (R78, R108, R110, R140). -/
def inDialect (d : Dialect) (run : State → State) (s : State) : State :=
  if s.cfg.dialect = d then run s else parserReset .srType s

/-- PING (R141). -/
def execPing (s : State) : Host.Outcome State Fault Refusal := .next (inDialect .d1 doPing s)

/-- INFO (R142). -/
def execInfo (s : State) : Host.Outcome State Fault Refusal := .next (inDialect .d1 doInfo s)

/-- LED-1BIT (R143): clear, map the bitmap, emit. -/
def execLed1bit (bm : Vector Byte bitmapLen) (s : State) : Host.Outcome State Fault Refusal :=
  .next (inDialect .d1 (State.render1 bm) s)

/-- LED (R144): split the intensities, emit, record the time. -/
def execLed8 (g : Vector Byte npix) (s : State) : Host.Outcome State Fault Refusal :=
  .next (inDialect .d2 (State.render8 g) s)

end Sys2Proof.Machine
end

