-- ==== Sys2Proof/Machine/Framer.lean ====
section
/-! DEFINITION. The byte steps (40_framer.md R100 to R112). The state and the byte class of a row are checked by the decoder, which picks the
row (R100); a row of one dialect does in the other what its byte does there, the silent reset (R78). -/

namespace Sys2Proof.Machine

/-- Header 0 accepted (R102). -/
def execH0Accept (s : State) : Host.Outcome State Fault Refusal :=
  .next { s.accept 0 hdr0 with pstate := .awaitHeader1 }

/-- A byte that is no header 0 is consumed and discarded (R103, tag DISC_HDR0). -/
def execH0Discard (_b : Byte) (s : State) : Host.Outcome State Fault Refusal := .next s

/-- Header 1 accepted (R104). -/
def execH1Accept (s : State) : Host.Outcome State Fault Refusal :=
  .next { s.accept 1 hdr1 with pstate := .awaitType }

/-- Header 1 mismatch: silent reset; the byte is not examined again (R105, D3). -/
def execH1Reset (_b : Byte) (s : State) : Host.Outcome State Fault Refusal := .next (parserReset .srHdr1 s)

/-- Accept the type byte, run a query, reset (R106). -/
def query (b : Byte) (run : State → State) (s : State) : State := parserReset .srDone (run (s.accept 2 b))

/-- Accept the type byte of an LED packet and begin accumulating (R107, R109). -/
def beginPacket (b : Byte) (t : PType) (s : State) : State :=
  { s.accept 2 b with ptype := some t, pstate := .accumulating }

/-- PING's type byte: reply at once, reset (R106, R141, R145). -/
def execT1Ping (s : State) : Host.Outcome State Fault Refusal := .next (inDialect .d1 (query tPing doPing) s)

/-- INFO's type byte: reply at once, reset (R106, R142, R145). -/
def execT1Info (s : State) : Host.Outcome State Fault Refusal := .next (inDialect .d1 (query tInfo doInfo) s)

/-- LED-1BIT's type byte: begin accumulating (R107). -/
def execT1Led1 (s : State) : Host.Outcome State Fault Refusal := .next (inDialect .d1 (beginPacket tLed1 .led1bit) s)

/-- An illegal type byte of dialect 1: silent reset (R108, D4). -/
def execT1Reset (_b : Byte) (s : State) : Host.Outcome State Fault Refusal := .next (parserReset .srType s)

/-- LED's type byte of dialect 2: begin accumulating (R109). -/
def execT2Led8 (s : State) : Host.Outcome State Fault Refusal := .next (inDialect .d2 (beginPacket tLed8 .led8) s)

/-- An illegal type byte of dialect 2: silent reset (R110, D4). -/
def execT2Reset (_b : Byte) (s : State) : Host.Outcome State Fault Refusal := .next (parserReset .srType s)

/-- Dispatch a complete LED packet to the mapper and reset (R111, R143, R144): `RenderLed1` or `RenderLed8` on the payload read from
the packet buffer. A payload byte that was never written is a fault (R38), which no run meets. -/
def dispatchPacket (s : State) : Host.Outcome State Fault Refusal :=
  if s.ptype = some .led1bit then
    match s.payload bitmapLen with
    | some bm => .next (parserReset .srDone (s.render1 bm))
    | none => .fault .pktUnwritten
  else
    match s.payload npix with
    | some g => .next (parserReset .srDone (s.render8 g))
    | none => .fault .pktUnwritten

/-- A payload byte (R111): append it; the byte that reaches the expected total completes the packet. At or beyond the expected total, or at the
end of the packet buffer, the byte is dropped with a reset (R58, R112). -/
def execAccAppend (b : Byte) (s : State) : Host.Outcome State Fault Refusal :=
  if s.count < expTotal s.ptype ∧ s.count < maxPkt s.cfg.dialect then
    if s.count + 1 = expTotal s.ptype then dispatchPacket (s.accept s.count b) else .next (s.accept s.count b)
  else .next (parserReset .srBound s)

/-- The defensive bound: abort without dispatch (R112). -/
def execAccBound (_b : Byte) (s : State) : Host.Outcome State Fault Refusal := .next (parserReset .srBound s)

end Sys2Proof.Machine
end

