-- ==== Sys2Proof/Machine/Dispatch.lean ====
section
/-! DEFINITION. The dispatch: one arm per constructor of Instr, each one direct call of a meaning. -/

namespace Sys2Proof.Machine

def exec (i : Instr) (s : State) : Host.Outcome State Fault Refusal :=
  match i with
  | .ping => Sys2Proof.Machine.execPing s
  | .info => Sys2Proof.Machine.execInfo s
  | .led1bit bm => Sys2Proof.Machine.execLed1bit bm s
  | .led8 g => Sys2Proof.Machine.execLed8 g s
  | .h0Accept => Sys2Proof.Machine.execH0Accept s
  | .h0Discard b => Sys2Proof.Machine.execH0Discard b s
  | .h1Accept => Sys2Proof.Machine.execH1Accept s
  | .h1Reset b => Sys2Proof.Machine.execH1Reset b s
  | .t1Ping => Sys2Proof.Machine.execT1Ping s
  | .t1Info => Sys2Proof.Machine.execT1Info s
  | .t1Led1 => Sys2Proof.Machine.execT1Led1 s
  | .t1Reset b => Sys2Proof.Machine.execT1Reset b s
  | .t2Led8 => Sys2Proof.Machine.execT2Led8 s
  | .t2Reset b => Sys2Proof.Machine.execT2Reset b s
  | .accAppend b => Sys2Proof.Machine.execAccAppend b s
  | .accBound b => Sys2Proof.Machine.execAccBound b s

end Sys2Proof.Machine
end

