-- ==== Sys2Proof/Machine/Loop.lean ====
section
/-! DEFINITION. The control loop and the peer (43_control_loop.md R200 to R212; 60_exceptions.md R236). One LOOP step is one whole event
(00_scope.md R6): one guard check (in the `GUARD` phase, or before a byte where the build has it), one byte step, the end of the drain, one
staleness check, one yield. -/

namespace Sys2Proof.Machine

/-- The decoding context of a state (R100). -/
def State.ctx (s : State) : Ctx := ⟨s.cfg.dialect, s.pstate, s.count, s.ptype⟩

/-- `Step(S, b)` (R100): the row the byte meets, executed. -/
def byteStep (b : Byte) (s : State) : Host.Outcome State Fault Refusal := exec (decodeByte s.ctx b) s

/-- The byte steps of a sequence of bytes, one after the other (R59, R61). -/
def feed : List Byte → State → Host.Outcome State Fault Refusal
  | [], s => .next s
  | b :: bs, s =>
    match byteStep b s with
    | .next t => feed bs t
    | .fault f => .fault f
    | .refused r => .refused r

/-- `Arrive(b)` (R201): a byte joins the tail of the receive FIFO, or is lost when the FIFO is full (D18). -/
def arrive (b : Byte) (s : State) : State :=
  if s.rx.length < s.cfg.rxCap then s.setRx (s.rx ++ [b]) else s

/-- The overflow test (R203, D40): dialect 2 only, and strict. -/
def State.overflowed (s : State) : Bool := s.cfg.dialect == .d2 && decide (guardLimit < s.rx.length)

/-- Discard all pending input and forcibly reset the framer (R203). -/
def discardPending (s : State) : State := parserReset .srGuard (s.setRx [])

/-- `Guard()` (R203, R211). -/
def guardStep (s : State) : State :=
  (if s.overflowed then discardPending s else s).setPhase .drain

/-- A byte step has emitted a frame (R205): the sink channel has grown. -/
def emittedFrame (before after : State) : Bool := decide (before.sink.length < after.sink.length)

/-- After a byte step of the drain: with `DRAIN_STOPS_AFTER_FRAME` a frame ends the phase (R205, D20). -/
def afterByte (before after : State) : State :=
  if before.cfg.drainStopsAfterFrame && emittedFrame before after then after.setPhase .stale else after

/-- The guard check before the next byte is still to be made (R204): the build has it, and this pass has not made it. -/
def State.checkDue (s : State) : Bool := s.cfg.guardPerByte && s.cfg.dialect == .d2 && !s.guardChecked

/-- The guard check before a byte (R204, R205), an event of its own (R6): it discards all and ends the phase, or lets the byte be popped next. -/
def byteGuard (s : State) : State := if s.overflowed then (discardPending s).setPhase .stale else s.passGuard

/-- One event of `Drain()` (R6, R204, R205): an empty FIFO ends the phase; a guard check that is due is made; otherwise the oldest byte is popped
and stepped. Arrivals may fall between the check and the `pop` (R201). -/
def drainStep (s : State) : Host.Outcome State Fault Refusal :=
  match s.rx with
  | [] => .next (s.setPhase .stale)
  | b :: rest =>
    if s.checkDue then .next (byteGuard s)
    else
      match byteStep b (s.pop rest) with
      | .next t => .next (afterByte s t)
      | .fault f => .fault f
      | .refused r => .refused r

/-- `StaleCheck()` fires (R236, D40): a frame time is recorded and more than 2000 ms have elapsed since. -/
def State.isStale (s : State) : Bool :=
  match s.lastFrame with
  | some t => decide (staleMs < elapsed s.cfg s.now t)
  | none => false

/-- `StaleCheck()` (R236): zero both strips, send one `Clear`, erase the recorded time (D16). -/
def staleCheck (s : State) : State :=
  if s.isStale then { { s with fb := s.fb.clearStrips }.sinkEvent .clear with lastFrame := none } else s

/-- The `STALE` phase (R206, R239): the check in dialect 2, nothing in dialect 1. -/
def staleStep (s : State) : State :=
  (if s.cfg.dialect = .d2 then staleCheck s else s).setPhase .yield

/-- `Yield()` (R207). -/
def yieldStep (s : State) : State := s.setPhase .guard

/-- One step of `LOOP` (R202). -/
def loopStep (s : State) : Host.Outcome State Fault Refusal :=
  match s.phase with
  | .guard => .next (guardStep s)
  | .drain => drainStep s
  | .stale => .next (staleStep s)
  | .yield => .next (yieldStep s)

/-- The `n`-th round of free moves (log 4), as its first move and the others: finitely many arrivals the peer chooses, then a step of `LOOP`. So the
peer may send for ever (R209), and `LOOP` still takes infinitely many steps (R208). -/
def freeRound (n : Nat) : Move × List Move :=
  match Config.freeArrivals n with
  | [] => (.loop (Config.freeAdvance n), [])
  | (dt, b) :: more => (.arrive dt b, more.map (fun p => .arrive p.1 p.2) ++ [.loop (Config.freeAdvance n)])

/-- The coming moves, as the next one and those after it: the listed inputs (log 3), or, where none is listed, a round of free moves. -/
def State.coming (s : State) : Move × List Move :=
  match s.sched with
  | m :: ms => (m, ms)
  | [] => freeRound s.freeIx

/-- The next move. -/
def State.nextMove (s : State) : Move := s.coming.1

/-- How far the time grows with a move. -/
def Move.dt : Move → Nat
  | .loop dt => dt
  | .arrive dt _ => dt

/-- The inputs of the next move taken: the time has grown, the move is used up. -/
def State.takeInput (s : State) : State :=
  { s with
    now := s.now + s.nextMove.dt
    sched := s.coming.2
    freeIx := if s.sched.isEmpty then s.freeIx + 1 else s.freeIx }

/-- The moves in which the peer sends the bytes one after the other, with no time between them (R82 `RAW b0 b1 …`, R201). -/
def sendMoves (bs : List Byte) : List Move := bs.map (Move.arrive 0)

/-- The move in which the peer sends nothing for `t` milliseconds (R82 `WAIT t`): `LOOP` steps next, that much later. -/
def waitMove (t : Nat) : List Move := [Move.loop t]

/-- One step of the agent whose move is next (R200, R201, R202). -/
def agentStep (s : State) : Host.Outcome State Fault Refusal :=
  match s.nextMove with
  | .loop _ => loopStep s.takeInput
  | .arrive _ b => .next (arrive b s.takeInput)

/-- The framer having accepted the bytes `before` of a packet in dialect `d`, the byte `b` alone in the FIFO, `LOOP` in its drain,
past the byte's guard check where the build has one, and next to move at the present time (log 9). -/
def State.place (d : Dialect) (before : List Byte) (b : Byte) (s : State) : State :=
  let c := ctxAfter d before
  { s with
    cfg := { s.cfg with dialect := d }
    pstate := c.pstate
    count := c.count
    ptype := c.ptype
    pkt := Memory.cellsFrom 0 before
    rx := [b]
    phase := .drain
    guardChecked := s.cfg.guardPerByte && d == .d2
    sched := .loop 0 :: s.sched }

end Sys2Proof.Machine
end

