-- ==== Sys2Proof/Machine/Step.lean ====
section
/-! DEFINITION. One step of the machine: one move of one agent (R6, R200). The three outcomes are Host.Core's: a next state; a fault; a
refusal. A configuration the spec says to refuse is refused before anything runs. -/

namespace Sys2Proof.Machine

/-- One step. -/
def step (s : State) : Host.Outcome State Fault Refusal :=
  if s.cfg.wf then agentStep s else .refused .badConfig

/-- The state with an instruction of the opcode table laid where the next step fetches (log 9). -/
def State.withFetchWord (s : State) (nbits w : Nat) : State :=
  match wordSetting nbits w with
  | (d, before, b) => s.place d before b

end Sys2Proof.Machine
end

