-- ==== Sys2Proof/Machine/Ghost.lean ====
section
/-! DEFINITION. The ghost cause tags of the silent actions (60_exceptions.md R231, D33), as functions of the state before the
action. They are not architectural: no rule reads them and no step depends on them; a test trace may. -/

namespace Sys2Proof.Machine

/-- The tag of a byte step (R103, R105, R106, R108, R110, R111, R112), if it raises one. -/
def byteTag (b : Byte) (s : State) : Option Cause :=
  match decodeByte s.ctx b with
  | .h0Discard _ => some .discHdr0
  | .h1Reset _ => some .srHdr1
  | .t1Ping => some .srDone
  | .t1Info => some .srDone
  | .t1Reset _ => some .srType
  | .t2Reset _ => some .srType
  | .accAppend _ => if s.count + 1 = expTotal s.ptype then some .srDone else none
  | .accBound _ => some .srBound
  | .h0Accept => none
  | .h1Accept => none
  | .t1Led1 => none
  | .t2Led8 => none
  | .ping => none
  | .info => none
  | .led1bit _ => none
  | .led8 _ => none

/-- The tag of an overflow check, in the `GUARD` phase or before a byte (R203, R204, R205). -/
def guardTag (s : State) : Option Cause := if s.overflowed then some .srGuard else none

/-- The tag of a pixel write (R161). -/
def pixelTag (i : Nat) : Option Cause := if i < stripLen then none else some .dropIndex

/-- The tag of the transform in `Render1` (R169). -/
def geomTag (x y : Nat) (line : Strip) : Option Cause := if geom x y line = none then some .dropGeom else none

/-- The tag of an arrival (R201). -/
def arriveTag (s : State) : Option Cause := if s.rx.length < s.cfg.rxCap then none else some .rxLost

end Sys2Proof.Machine
end

