-- ==== Sys2Proof/Safety.lean ====
section
/-! DEFINITION. The words the claims use: the invariants of every run (R23 to R26, R28, R30, R31), what the output channels may hold
(R27, R146, R238, R239), what a framer reset leaves alone (R101), and the quiescent points at which a run is observed (R209). -/

namespace Sys2Proof.Machine

/-! ## The framer -/

/-- The type tag of the dialect's LED packet (R25). -/
def ledType : Dialect → PType
  | .d1 => .led1bit
  | .d2 => .led8

/-- The type byte of the dialect's LED packet (R72, R73). -/
def ledTypeByte : Dialect → Byte
  | .d1 => tLed1
  | .d2 => tLed8

/-- `S.count` and `S.ptype` agree with `S.pstate` (the table of R23; R25). -/
def State.countFits (s : State) : Prop :=
  match s.pstate with
  | .awaitHeader0 => s.count = 0 ∧ s.ptype = none
  | .awaitHeader1 => s.count = 1 ∧ s.ptype = none
  | .awaitType => s.count = 2 ∧ s.ptype = none
  | .accumulating => 3 ≤ s.count ∧ s.count < expTotal s.ptype ∧ s.ptype = some (ledType s.cfg.dialect)

/-- `S.pkt` holds exactly the accepted bytes of the current packet, at offsets `0 .. count − 1`, the first three of them the header and
the type byte (R24). -/
def State.pktFits (s : State) : Prop :=
  s.pkt = Memory.cellsFrom 0 (s.pkt.map Prod.snd) ∧ s.pkt.length = s.count ∧
    (s.pkt.map Prod.snd).take 3 = [hdr0, hdr1, ledTypeByte s.cfg.dialect].take s.count

/-- A recorded frame time is a stored time, not later than now (R30, R37, R237). -/
def State.lastFrameFits (s : State) : Prop :=
  match s.lastFrame with
  | none => True
  | some t =>
    match s.cfg.timeBits with
    | none => t ≤ s.now
    | some n => t < 2 ^ n

/-- The invariant of every run. -/
structure State.Inv (s : State) : Prop where
  /-- the configuration is one the spec admits (R11) -/
  cfg : s.cfg.wf = true
  /-- R23, R25, R26 -/
  count : s.countFits
  /-- R24 -/
  pkt : s.pktFits
  /-- R28 -/
  fb : s.fb.wf = true
  /-- R20, R31: `|S.rx| ≤ RX_CAP` -/
  rx : s.rx.length ≤ s.cfg.rxCap
  /-- R30, R239: dialect 1 records no frame time -/
  noTimer : s.cfg.dialect = .d1 → s.lastFrame = none
  /-- R30, R37, R237 -/
  lastFrame : s.lastFrameFits

/-- A guard check waits for its `pop` only inside the drain, before a byte, in a build that has it (R204, R205). -/
def State.checkFits (s : State) : Prop :=
  s.guardChecked = true → s.phase = .drain ∧ s.rx ≠ [] ∧ s.cfg.guardPerByte = true ∧ s.cfg.dialect = .d2

/-- The framer is at its start (R101), as after reset. -/
def State.framerIdle (s : State) : Prop := s.pstate = .awaitHeader0 ∧ s.count = 0 ∧ s.ptype = none ∧ s.pkt = []

/-- `t` is `s` with the framer registers back at their start and nothing else changed; the packet buffer's contents, unspecified
after a reset (R101), are left out of the comparison. -/
def FramerResetOf (s t : State) : Prop :=
  t.pstate = .awaitHeader0 ∧ t.count = 0 ∧ t.ptype = none ∧
    { t with pstate := s.pstate, count := s.count, ptype := s.ptype, pkt := s.pkt } = s

/-- Byte `b` has been stored at offset `i` of the packet buffer: every other offset reads as before, and nothing but the framer
registers differs (the frame of R102, R104, R107, R109, R111). -/
def StoredAt (i : Nat) (b : Byte) (s t : State) : Prop :=
  t.pkt.read i = some b ∧ (∀ a, a ≠ i → t.pkt.read a = s.pkt.read a) ∧
    { t with pkt := s.pkt, pstate := s.pstate, count := s.count, ptype := s.ptype } = s

/-! ## The output channels -/

/-- The lines on `TX` after the banner may only be replies (R146). -/
def State.txFits (s : State) : Prop :=
  match s.cfg.dialect with
  | .d1 => ∃ replies, s.tx = s.cfg.bannerLines ++ replies ∧ ∀ l ∈ replies, l = "PONG" ∨ l ∈ s.cfg.infoLines
  | .d2 => s.tx = s.cfg.bannerLines

/-- Every `Clear` of an event list comes right after an `Emit`; `true` says that the list follows an `Emit`. -/
def clearsFollowFrames : Bool → List SinkEvent → Bool
  | _, [] => true
  | _, .emit _ :: es => clearsFollowFrames true es
  | afterFrame, .clear :: es => afterFrame && clearsFollowFrames false es

/-- The last event is an `Emit`. -/
def lastIsFrame (es : List SinkEvent) : Bool :=
  match es.getLast? with
  | some (.emit _) => true
  | some .clear => false
  | none => false

/-- At most one `Clear` between two frames (R238), none in dialect 1 (R239), and a recorded time only while the latest event is a frame. -/
def State.clearsFit (s : State) : Prop :=
  clearsFollowFrames false s.sink = true ∧ (s.lastFrame.isSome = true → lastIsFrame s.sink = true) ∧
    (s.cfg.dialect = .d1 → s.lastFrame = none ∧ SinkEvent.clear ∉ s.sink)

/-- The kinds of pixel a dialect writes (R27). -/
def pixelKind : Dialect → Pixel → Prop
  | .d1, p => p = black ∨ p = white
  | .d2, p => ∃ v, p = gray v

/-- Every pixel of a frame buffer is of the dialect's kind. -/
def FrameBuffer.kindsFit (d : Dialect) (fb : FrameBuffer) : Prop :=
  (∀ p ∈ fb.left, pixelKind d p) ∧ ∀ p ∈ fb.right, pixelKind d p

/-- Every pixel of the strips and of every emitted frame is of the dialect's kind (R27). -/
def State.pixelsFit (s : State) : Prop :=
  s.fb.kindsFit s.cfg.dialect ∧ ∀ fb, SinkEvent.emit fb ∈ s.sink → fb.kindsFit s.cfg.dialect

/-! ## Runs -/

/-- A quiescent point (R209): the start of an iteration, every listed byte arrived or lost, the FIFO empty. No run need reach one: the peer may keep
sending (`freeRound`). -/
def State.quiescent (s : State) : Prop := s.phase = .guard ∧ s.rx = [] ∧ ∀ dt b, Move.arrive dt b ∉ s.sched

/-- The record `S` of R20 and nothing else: neither channels and configuration (R33, R34) nor time and other inputs (R37) nor the model's own counter. -/
structure ArchState where
  pstate : PState
  count : Nat
  ptype : Option PType
  pkt : Memory
  left : List Pixel
  right : List Pixel
  lastFrame : Option Nat
  rx : List Byte
  phase : Phase
deriving DecidableEq, Repr

/-- `S` of a state (R20). -/
def State.arch (s : State) : ArchState :=
  ⟨s.pstate, s.count, s.ptype, s.pkt, s.fb.left, s.fb.right, s.lastFrame, s.rx, s.phase⟩

/-- The observation at a quiescent point (R209): `TX`, `SINK` and `S`. It says nothing of the time, of coming inputs or of what the sink has done. -/
def State.observation (s : State) : List Line × List SinkEvent × ArchState := (s.tx, s.sink, s.arch)

/-- `n` steps, stopping at the first fault or refusal. -/
def runSteps : Nat → State → Host.Outcome State Fault Refusal
  | 0, s => .next s
  | n + 1, s =>
    match step s with
    | .next t => runSteps n t
    | .fault f => .fault f
    | .refused r => .refused r

/-- The number of bits set in a bitmap, over the 2048 logical pixels (R169). -/
def bitsSet (bm : Vector Byte bitmapLen) : Nat := ((List.range npix).filter fun p => bitmapBit bm p).length

/-- The number of `WHITE` pixels of a frame buffer (R169). -/
def FrameBuffer.whites (fb : FrameBuffer) : Nat := (fb.left.filter (· == white)).length + (fb.right.filter (· == white)).length

end Sys2Proof.Machine
end

