-- ==== Sys2Proof/Certificates/Slice0/Obligations.lean ====
section
/-! DEFINITION. The statements for the provers, from the spec's numbered rules. They hold for every configuration (the configuration is a field of
the state), every state, every byte and every payload; the hypotheses that are there are named in each docstring. -/

open Sys2Proof Sys2Proof.Machine

/-! ## Encoding -/

/-- Decoding the encoding of a packet command gives it back with the bytes after it, for every payload (R71 to R76). -/
def Obligations.PacketDecodeInvertsEncode : Prop :=
  ∀ (d : Dialect) (i : Instr) (rest : List Byte), packetDialect i = some d → decodePacket d (encode i ++ rest) = .ok (i, rest)

/-- Whatever the packet decoder reads is the encoding of what it answers, of a command of that dialect (R78: every other stream is no packet). -/
def Obligations.PacketDecoderReadsOnlyEncodings : Prop :=
  ∀ (d : Dialect) (bs rest : List Byte) (i : Instr), decodePacket d bs = .ok (i, rest) → bs = encode i ++ rest ∧ packetDialect i = some d

/-- In every context that a byte-step row speaks of, the byte of a well-formed instruction of that row decodes to it (R81(b), R100). -/
def Obligations.ByteDecodeInvertsEncode : Prop :=
  ∀ (c : Ctx) (i : Instr) (b : Byte) (r : ByteRow), i.wellFormed = true → encode i = [b] → r ∈ byteRows → r.mnemonic = i.mnemonic →
    (r.dialect = none ∨ r.dialect = some c.dialect) → r.pstate = c.pstate → r.cond.holds c = true → decodeByte c b = i

/-- Every byte in every context meets exactly one row of the opcode table, exact rows first and the fallback row last, and decodes to a
well-formed instruction of that row with that byte (R81(b)). -/
def Obligations.EveryByteMeetsOneRow : Prop :=
  ∀ (c : Ctx) (b : Byte),
    (rowFor c b).map ByteRow.mnemonic = some (decodeByte c b).mnemonic ∧ (decodeByte c b).wellFormed = true ∧
    encode (decodeByte c b) = [b] ∧ (byteRows.filter fun r => !r.fallback && r.fits c b).length ≤ 1 ∧
    (byteRows.filter fun r => r.fallback && r.fits c b).length ≤ 1

/-- The type bytes of a dialect other than its own are no packets (R78). -/
def Obligations.IllegalTypeIsNoPacket : Prop :=
  ∀ (t : Byte) (rest : List Byte),
    (t ≠ tLed1 → t ≠ tPing → t ≠ tInfo → decodePacket .d1 (hdr0 :: hdr1 :: t :: rest) = .error (.badType .d1 t)) ∧
    (t ≠ tLed8 → decodePacket .d2 (hdr0 :: hdr1 :: t :: rest) = .error (.badType .d2 t))

/-- The words of the table, written out from R72, R73 and R81, decode to the instructions they stand for. -/
def Obligations.TableWordsDecode : Prop :=
  decodePacket .d1 [0xAA, 0xBB, 0x05] = .ok (.ping, []) ∧ decodePacket .d1 [0xAA, 0xBB, 0x06] = .ok (.info, []) ∧
  decodeByte ⟨.d1, .awaitHeader0, 0, none⟩ 0xAA = .h0Accept ∧ decodeByte ⟨.d2, .awaitHeader1, 1, none⟩ 0xBB = .h1Accept ∧
  decodeByte ⟨.d1, .awaitType, 2, none⟩ 0x03 = .t1Led1 ∧ decodeByte ⟨.d2, .awaitType, 2, none⟩ 0x03 = .t2Reset 0x03 ∧
  decodeByte ⟨.d2, .awaitType, 2, none⟩ 0x01 = .t2Led8 ∧ decodeByte ⟨.d1, .accumulating, 258, some .led1bit⟩ 0xAA = .accAppend 0xAA

/-! ## The byte steps -/

/-- `ParserReset` returns the framer to its start and touches nothing else (R101). -/
def Obligations.ParserResetReturnsToStart : Prop := ∀ (c : Cause) (s : State), FramerResetOf s (parserReset c s)

/-- H0.ACCEPT (R102), in every state: `0xAA` at offset 0, count 1, `AWAIT_HEADER_1`, nothing else. It is what the byte `0xAA` does in
`AWAIT_HEADER_0`, in both dialects. -/
def Obligations.HeaderZeroAccepted : Prop :=
  ∀ s : State,
    (∃ t, exec .h0Accept s = .next t ∧ StoredAt 0 0xAA s t ∧ t.count = 1 ∧ t.pstate = .awaitHeader1 ∧ t.ptype = s.ptype) ∧
    (s.pstate = .awaitHeader0 → byteStep 0xAA s = exec .h0Accept s)

/-- H0.DISCARD (R103): no state change. It is what every byte but `0xAA` does in `AWAIT_HEADER_0`, and so a stream of them of any length. -/
def Obligations.NonHeaderDiscarded : Prop :=
  (∀ (b : Byte) (s : State), exec (.h0Discard b) s = .next s) ∧
  ∀ (bs : List Byte) (s : State), s.pstate = .awaitHeader0 → (∀ b ∈ bs, b ≠ 0xAA) → feed bs s = .next s

/-- H1.ACCEPT (R104), in every state: `0xBB` at offset 1, count 2, `AWAIT_TYPE`, nothing else. It is what the byte `0xBB` does in
`AWAIT_HEADER_1`, in both dialects. -/
def Obligations.HeaderOneAccepted : Prop :=
  ∀ s : State,
    (∃ t, exec .h1Accept s = .next t ∧ StoredAt 1 0xBB s t ∧ t.count = 2 ∧ t.pstate = .awaitType ∧ t.ptype = s.ptype) ∧
    (s.pstate = .awaitHeader1 → byteStep 0xBB s = exec .h1Accept s)

/-- H1.RESET (R105; that the byte is not examined again as a header 0 is the spec's own choice D3): silent reset. It is what every byte but
`0xBB` does in `AWAIT_HEADER_1`, so after `AA AA` the framer is at its start. -/
def Obligations.HeaderOneMismatchResets : Prop :=
  (∀ (b : Byte) (s : State), ∃ t, exec (.h1Reset b) s = .next t ∧ FramerResetOf s t) ∧
  ∀ s : State, s.pstate = .awaitHeader1 → ∀ b, b ≠ 0xBB → ∃ t, byteStep b s = .next t ∧ FramerResetOf s t

/-- T1.PING and T1.INFO (R106), in dialect 1: the reply is sent, the framer resets, nothing else changes. They are what `0x05` and `0x06` do in
`AWAIT_TYPE`. -/
def Obligations.QueryTypeRepliesAndResets : Prop :=
  ∀ s : State, s.cfg.dialect = .d1 →
    (∃ t, exec .t1Ping s = .next t ∧ FramerResetOf { s with tx := s.tx ++ ["PONG"] } t) ∧
    (∃ t, exec .t1Info s = .next t ∧ FramerResetOf { s with tx := s.tx ++ s.cfg.infoLines } t) ∧
    (s.pstate = .awaitType → byteStep 0x05 s = exec .t1Ping s ∧ byteStep 0x06 s = exec .t1Info s)

/-- T1.LED1 (R107), in dialect 1: the type byte at offset 2, count 3, `ACCUMULATING` with the expected total 259, no output. It is what `0x03`
does in `AWAIT_TYPE`. -/
def Obligations.Led1TypeBeginsAccumulating : Prop :=
  ∀ s : State, s.cfg.dialect = .d1 →
    (∃ t, exec .t1Led1 s = .next t ∧ StoredAt 2 0x03 s t ∧ t.count = 3 ∧ t.ptype = some .led1bit ∧ t.pstate = .accumulating ∧
      expTotal t.ptype = 259) ∧
    (s.pstate = .awaitType → byteStep 0x03 s = exec .t1Led1 s)

/-- T1.RESET (R108) and T2.RESET (R110; that the byte is not examined again as a header 0 is the spec's own choice D4): silent reset. They are what
every byte but the dialect's own type bytes does in `AWAIT_TYPE`. -/
def Obligations.IllegalTypeResets : Prop :=
  ∀ (b : Byte) (s : State),
    (∃ t, exec (.t1Reset b) s = .next t ∧ FramerResetOf s t) ∧ (∃ t, exec (.t2Reset b) s = .next t ∧ FramerResetOf s t) ∧
    (s.pstate = .awaitType → s.cfg.dialect = .d1 → b ≠ 0x03 → b ≠ 0x05 → b ≠ 0x06 → byteStep b s = exec (.t1Reset b) s) ∧
    (s.pstate = .awaitType → s.cfg.dialect = .d2 → b ≠ 0x01 → byteStep b s = exec (.t2Reset b) s)

/-- T2.LED8 (R109), in dialect 2: the type byte at offset 2, count 3, `ACCUMULATING` with the expected total 2051, no output. It is what `0x01`
does in `AWAIT_TYPE`. -/
def Obligations.Led8TypeBeginsAccumulating : Prop :=
  ∀ s : State, s.cfg.dialect = .d2 →
    (∃ t, exec .t2Led8 s = .next t ∧ StoredAt 2 0x01 s t ∧ t.count = 3 ∧ t.ptype = some .led8 ∧ t.pstate = .accumulating ∧
      expTotal t.ptype = 2051) ∧
    (s.pstate = .awaitType → byteStep 0x01 s = exec .t2Led8 s)

/-- What belongs to one dialect is in the other the silent reset of its type byte: no reply, no frame, no other effect (R78; for the packet
commands this is the model's reading, log 8). -/
def Obligations.OtherDialectResetsSilently : Prop :=
  ∀ (i : Instr) (s : State),
    (s.cfg.dialect = .d2 ∧ (i = .t1Ping ∨ i = .t1Info ∨ i = .t1Led1 ∨ packetDialect i = some .d1)) ∨
    (s.cfg.dialect = .d1 ∧ (i = .t2Led8 ∨ packetDialect i = some .d2)) →
    ∃ t, exec i s = .next t ∧ FramerResetOf s t

/-- ACC.APPEND (R111) in a state of a run: the byte is stored at `count`; if the total is not reached nothing else happens; if it is, the
payload (the bytes stored and this one) is rendered by the dialect's renderer and the framer resets. Every byte value is payload: that no header
restarts the packet is the spec's own choice D5, and that completion comes before the bound is its choice D6. -/
def Obligations.PayloadByteAppendsOrCompletes : Prop :=
  ∀ (b : Byte) (s : State), s.Inv → s.pstate = .accumulating →
    byteStep b s = exec (.accAppend b) s ∧
    (s.count + 1 < expTotal s.ptype →
      ∃ t, exec (.accAppend b) s = .next t ∧ StoredAt s.count b s t ∧ t.count = s.count + 1 ∧ t.pstate = s.pstate ∧ t.ptype = s.ptype) ∧
    (s.count + 1 = expTotal s.ptype → s.ptype = some .led1bit →
      ∃ (bm : Vector Byte bitmapLen) (t : State), (∀ k < 255, s.pkt.read (3 + k) = some (payloadByte bm k)) ∧ payloadByte bm 255 = b ∧
        exec (.accAppend b) s = .next t ∧
        FramerResetOf { s with fb := render1 bm s.fb, sink := s.sink ++ [.emit (render1 bm s.fb)] } t) ∧
    (s.count + 1 = expTotal s.ptype → s.ptype = some .led8 →
      ∃ (g : Vector Byte npix) (t : State), (∀ k < 2047, s.pkt.read (3 + k) = some (payloadByte g k)) ∧ payloadByte g 2047 = b ∧
        exec (.accAppend b) s = .next t ∧
        FramerResetOf { s with
          fb := render8 g s.fb, sink := s.sink ++ [.emit (render8 g s.fb)], lastFrame := some (stamp s.cfg s.now) } t)

/-- ACC.BOUND (R112), in every state: the byte is dropped, the framer resets, nothing is rendered; it is the row that a byte meets in
`ACCUMULATING` at `count ≥ EXP`. -/
def Obligations.DefensiveBoundAborts : Prop :=
  (∀ (b : Byte) (s : State), ∃ t, exec (.accBound b) s = .next t ∧ FramerResetOf s t) ∧
  ∀ (b : Byte) (s : State), s.pstate = .accumulating → expTotal s.ptype ≤ s.count → decodeByte s.ctx b = .accBound b

/-- No byte is stored beyond the packet buffer: an append there resets the framer instead (R58). -/
def Obligations.AppendBeyondBufferResets : Prop :=
  ∀ (b : Byte) (s : State), maxPkt s.cfg.dialect ≤ s.count → ∃ t, exec (.accAppend b) s = .next t ∧ FramerResetOf s t

/-! ## The packet commands -/

/-- PING (R141), in dialect 1: `TX` gains exactly `"PONG"`; nothing else changes. -/
def Obligations.PingSendsPong : Prop :=
  ∀ s : State, s.cfg.dialect = .d1 → exec .ping s = .next { s with tx := s.tx ++ ["PONG"] }

/-- INFO (R142), in dialect 1: `TX` gains the lines of `INFO_LINES`, the last of them `"OK"` in a configuration the spec admits; nothing else. -/
def Obligations.InfoSendsInfoLines : Prop :=
  ∀ s : State, s.cfg.dialect = .d1 →
    exec .info s = .next { s with tx := s.tx ++ s.cfg.infoLines } ∧ (s.cfg.wf = true → (s.tx ++ s.cfg.infoLines).getLast? = some "OK")

/-- LED-1BIT (R143), in dialect 1: the strips become the rendered bitmap, one `Emit` of them is sent, nothing else changes (`S.last_frame` is not
written); the previous frame does not matter. -/
def Obligations.Led1BitRendersAndEmits : Prop :=
  ∀ (bm : Vector Byte bitmapLen) (s : State), s.cfg.dialect = .d1 →
    exec (.led1bit bm) s = .next { s with fb := render1 bm s.fb, sink := s.sink ++ [.emit (render1 bm s.fb)] } ∧
    ∀ fb, render1 bm fb = render1 bm s.fb

/-- LED (R144), in dialect 2: the strips become the split intensities, one `Emit`, the time is recorded, nothing else changes. -/
def Obligations.Led8RendersEmitsAndRecords : Prop :=
  ∀ (g : Vector Byte npix) (s : State), s.cfg.dialect = .d2 →
    exec (.led8 g) s = .next { s with
      fb := render8 g s.fb, sink := s.sink ++ [.emit (render8 g s.fb)], lastFrame := some (stamp s.cfg s.now) }

/-- A whole packet, byte by byte from `AWAIT_HEADER_0`, has exactly the effect of its command, whatever the packet buffer held before (the form of
idempotence that holds, R114; R106, R111). The packet buffer, unspecified after a reset, is left out of the comparison. -/
def Obligations.WholePacketHasItsCommandsEffect : Prop :=
  ∀ (i : Instr) (s : State), packetDialect i = some s.cfg.dialect → s.pstate = .awaitHeader0 → s.count = 0 → s.ptype = none →
    s.pkt.wf = true →
    ∃ t u, feed (encode i) s = .next t ∧ exec i s = .next u ∧ { t with pkt := u.pkt } = u

/-- No reply and no frame without the exact header, type and payload (R113): when a byte changes `TX` or `SINK`, it is the last byte of a packet of
the dialect, consumed in order from `AWAIT_HEADER_0`. -/
def Obligations.OutputsOnlyAtTheEndOfAPacket : Prop :=
  ∀ (bs : List Byte) (b : Byte) (s t u : State), s.framerIdle → feed bs s = .next t → byteStep b t = .next u →
    (u.tx ≠ t.tx ∨ u.sink ≠ t.sink) →
    ∃ (before : List Byte) (i : Instr) (m : State), packetDialect i = some s.cfg.dialect ∧ bs ++ [b] = before ++ encode i ∧
      feed before s = .next m ∧ m.pstate = .awaitHeader0

/-- Filler without header bytes resynchronises (R265): after as many bytes other than `0xAA` as a packet is long, the framer is in
`AWAIT_HEADER_0`, whatever it was doing. -/
def Obligations.FillerResynchronises : Prop :=
  ∀ (bs : List Byte) (s : State), s.Inv → (∀ b ∈ bs, b ≠ hdr0) → maxPkt s.cfg.dialect ≤ bs.length →
    ∃ t, feed bs s = .next t ∧ t.pstate = .awaitHeader0

/-! ## The mapper -/

/-- `SetPixel` (R161) on strips of 1024 pixels: the pixel is written, every other is as before, an index of 1024 or more writes nothing. -/
def Obligations.SetPixelWritesInBoundsOnly : Prop :=
  ∀ (fb : FrameBuffer) (st : Strip) (i : Nat) (p : Pixel), fb.wf = true →
    (i < 1024 → (fb.setPixel st i p).pixel st i = some p) ∧
    (∀ st' j, (st' ≠ st ∨ j ≠ i) → (fb.setPixel st i p).pixel st' j = fb.pixel st' j) ∧ (1024 ≤ i → fb.setPixel st i p = fb)

/-- `ClearStrips` (R162): every pixel of both strips is black. -/
def Obligations.ClearStripsBlackens : Prop :=
  ∀ (fb : FrameBuffer) (st : Strip) (i : Nat), i < 1024 → fb.clearStrips.pixel st i = some ⟨0, 0, 0⟩

/-- The 2048-pixel controller view (R29, the spec's own choice D8): index `k < 1024` is left pixel `k`, `1024 ≤ k < 2048` is right pixel `k − 1024`, and a write at
`k ≥ 2048` is ignored. -/
def Obligations.ControllerViewIsLeftThenRight : Prop :=
  ∀ (fb : FrameBuffer) (k : Nat) (p : Pixel), fb.wf = true →
    (k < 1024 → fb.controllerView[k]? = fb.pixel .left k ∧ (fb.controllerSet k p).pixel .left k = some p) ∧
    (1024 ≤ k → k < 2048 → fb.controllerView[k]? = fb.pixel .right (k - 1024) ∧ (fb.controllerSet k p).pixel .right (k - 1024) = some p) ∧
    (2048 ≤ k → fb.controllerSet k p = fb)

/-- `BitmapBit` (R164): the value of the bit, most significant first, by arithmetic on the byte's value. -/
def Obligations.BitmapBitIsMsbFirst : Prop :=
  ∀ (bm : Vector Byte bitmapLen) (p : Nat) (h : p < 2048),
    bitmapBit bm p = decide ((bm[p / 8]'(by simp only [bitmapLen]; omega)).toNat / 2 ^ (7 - p % 8) % 2 = 1)

/-- The closed form of the transform (R172, which the spec derives from R168). -/
def Obligations.GeomClosedForm : Prop :=
  ∀ x y : Nat, x < 32 → y < 64 →
    lineOf x = (if x < 16 then .right else .left) ∧
    geom x y (lineOf x) =
      some (256 * (y / 16) + 16 * (y % 16) + if y % 16 % 2 = 0 then 15 - x % 16 else x % 16)

/-- The transform rejects coordinates outside the matrix (the spec's own choice D23), and every position for the line that does not carry it (R168;
the pairing of lines and panel columns is the spec's choice D38). -/
def Obligations.GeomRejectsTheWrongLine : Prop :=
  (∀ x y line, 32 ≤ x ∨ 64 ≤ y → geom x y line = none) ∧
  (∀ x y line, x < 32 → y < 64 → line ≠ lineOf x → geom x y line = none) ∧
  ∀ x y line i, geom x y line = some i → i < 1024

/-- The dialect 1 map is a bijection (R171, which the spec derives): every logical position has an LED on its own line and none on the other, and
every LED of every line shows exactly one logical position. -/
def Obligations.LineMapIsBijective : Prop :=
  (∀ p < 2048, (∃ i < 1024, geom (p % 32) (p / 32) (lineOf (p % 32)) = some i) ∧
    ∀ line, line ≠ lineOf (p % 32) → geom (p % 32) (p / 32) line = none) ∧
  ∀ (st : Strip) (i : Nat), i < 1024 →
    ∃ p < 2048, (lineOf (p % 32) = st ∧ geom (p % 32) (p / 32) st = some i) ∧
      ∀ q < 2048, lineOf (q % 32) = st → geom (q % 32) (q / 32) st = some i → q = p

/-- The inverse map (R173, which the spec derives) gives the logical position that the transform sends to an LED, and only that. -/
def Obligations.InverseMapInvertsGeom : Prop :=
  ∀ (st : Strip) (i : Nat), i < 1024 →
    (pixelAt st i).1 < 32 ∧ (pixelAt st i).2 < 64 ∧ lineOf (pixelAt st i).1 = st ∧ geom (pixelAt st i).1 (pixelAt st i).2 st = some i ∧
    ∀ x y, geom x y st = some i → (x, y) = pixelAt st i

/-- `Render1` (R169), pixel by pixel: an LED is white exactly if the bit of the logical position it shows is set, and black otherwise. -/
def Obligations.Render1ShowsTheBitmap : Prop :=
  ∀ (bm : Vector Byte bitmapLen) (fb : FrameBuffer) (st : Strip) (i : Nat), i < 1024 →
    (render1 bm fb).pixel st i =
      some (if bitmapBit bm (32 * (pixelAt st i).2 + (pixelAt st i).1) = true then ⟨255, 255, 255⟩ else ⟨0, 0, 0⟩)

/-- "The result holds exactly as many `WHITE` pixels as the bitmap has set bits" (R169). -/
def Obligations.Render1LightsAsManyPixelsAsBits : Prop :=
  ∀ (bm : Vector Byte bitmapLen) (fb : FrameBuffer), (render1 bm fb).whites = bitsSet bm

/-- `Render8` (R170), pixel by pixel: intensity `i` goes to left pixel `i`, intensity `1024 + i` to right pixel `i`, in all three channels; all
2048 pixels are written, so the previous frame does not matter. -/
def Obligations.Render8SplitsTheIntensities : Prop :=
  ∀ (g : Vector Byte npix) (fb : FrameBuffer) (i : Nat) (h : i < 1024),
    (render8 g fb).pixel .left i = some ⟨g[i]'(by simp only [npix]; omega), g[i]'(by simp only [npix]; omega), g[i]'(by simp only [npix]; omega)⟩ ∧
    (render8 g fb).pixel .right i =
      some ⟨g[1024 + i]'(by simp only [npix]; omega), g[1024 + i]'(by simp only [npix]; omega), g[1024 + i]'(by simp only [npix]; omega)⟩

/-! ## The peer, the loop and the timer -/

/-- `Arrive` (R201): a byte joins the tail of the FIFO, or is lost when it is full (the spec's own choice D18); nothing else changes. -/
def Obligations.ArrivalQueuesOrIsLost : Prop :=
  ∀ (b : Byte) (s : State),
    (s.rx.length < s.cfg.rxCap → arrive b s = { s with rx := s.rx ++ [b] }) ∧ (s.cfg.rxCap ≤ s.rx.length → arrive b s = s)

/-- A step in which the peer moves is the arrival of its byte, in any phase and any framer state, whether the move is listed or free (R200, R201);
the inputs taken are used up. -/
def Obligations.PeerStepIsAnArrival : Prop :=
  ∀ (s : State) (dt : Nat) (b : Byte) (more : List Move), s.cfg.wf = true → s.coming = (.arrive dt b, more) →
    step s = .next (arrive b
      { s with now := s.now + dt, sched := more, freeIx := if s.sched = [] then s.freeIx + 1 else s.freeIx })

/-- A step of the drain pops the oldest byte and runs the instruction it decodes to (R100, R205), when the loop moves (by a listed input or a free one),
the FIFO is not empty and no guard check is due (the build has none before a byte, or this byte's has been made): where that instruction answers a next state so does the step (the phase ends after a frame where the build has it so), and where
it faults the step faults. -/
def Obligations.DrainStepRunsTheDecodedInstruction : Prop :=
  ∀ (s u : State) (dt : Nat) (b : Byte) (more : List Move) (rest : List Byte), s.cfg.wf = true → s.coming = (.loop dt, more) →
    s.phase = .drain → s.rx = b :: rest → (s.cfg.guardPerByte = true → s.cfg.dialect = .d2 → s.guardChecked = true) →
    u = { s with
      now := s.now + dt, sched := more, freeIx := if s.sched = [] then s.freeIx + 1 else s.freeIx, rx := rest, guardChecked := false } →
    (∀ t, exec (decodeByte ⟨s.cfg.dialect, s.pstate, s.count, s.ptype⟩ b) u = .next t →
      step s = .next (if s.cfg.drainStopsAfterFrame = true ∧ s.sink.length < t.sink.length then { t with phase := .stale } else t)) ∧
    ∀ f, exec (decodeByte ⟨s.cfg.dialect, s.pstate, s.count, s.ptype⟩ b) u = .fault f → step s = .fault f

/-- The other events of the loop are steps, when the loop moves by a listed input or a free one: a guard check in its phase or before a byte, the end
of the drain, a staleness check, a yield (R6, R202, R204). -/
def Obligations.LoopStepsArePhaseSteps : Prop :=
  ∀ (s u : State) (dt : Nat) (more : List Move), s.cfg.wf = true → s.coming = (.loop dt, more) →
    u = { s with now := s.now + dt, sched := more, freeIx := if s.sched = [] then s.freeIx + 1 else s.freeIx } →
    (s.phase = .guard → step s = .next (guardStep u)) ∧
    (s.phase = .drain → s.rx ≠ [] → s.cfg.guardPerByte = true → s.cfg.dialect = .d2 → s.guardChecked = false →
      step s = .next (byteGuard u)) ∧
    (s.phase = .drain → s.rx = [] → step s = .next { u with phase := .stale }) ∧
    (s.phase = .stale → step s = .next (staleStep u)) ∧ (s.phase = .yield → step s = .next { u with phase := .guard })

/-- The overflow guard (R203; the strict limit is the spec's own choice D40): in dialect 2 at more than 4102 pending bytes all are discarded and the
framer resets, at 4102 or fewer and in dialect 1 nothing happens; either way the drain is next, and nothing else changes. -/
def Obligations.OverflowGuardDiscardsAll : Prop :=
  ∀ s : State,
    (s.cfg.dialect = .d2 → 4102 < s.rx.length → FramerResetOf { s with rx := [], phase := .drain } (guardStep s)) ∧
    (s.cfg.dialect = .d1 ∨ s.rx.length ≤ 4102 → guardStep s = { s with phase := .drain })

/-- Dialect 1 has no overflow guard (R211), however many bytes are pending: not in the `GUARD` phase, and not before a byte. -/
def Obligations.Dialect1HasNoGuard : Prop :=
  ∀ s : State, s.cfg.dialect = .d1 →
    guardStep s = { s with phase := .drain } ∧
    ∀ b rest t, s.rx = b :: rest → byteStep b { s with rx := rest, guardChecked := false } = .next t → drainStep s = .next (afterByte s t)

/-- The guard before each byte (R204, the spec's own choice D17), an event of its own before the byte's `pop` (R6): with `GUARD_PER_BYTE`, in
dialect 2, a check that is due discards all, resets the framer and ends the phase at more than 4102 pending bytes, and otherwise only lets the byte be
popped; after it, however many bytes have arrived meanwhile, and in a build without it, the oldest byte is stepped. -/
def Obligations.GuardBeforeEachByteIfBuilt : Prop :=
  ∀ s : State, s.cfg.dialect = .d2 →
    (s.cfg.guardPerByte = true → s.guardChecked = false → 4102 < s.rx.length →
      drainStep s = .next (byteGuard s) ∧ FramerResetOf { s with rx := [], phase := .stale } (byteGuard s)) ∧
    (s.cfg.guardPerByte = true → s.guardChecked = false → s.rx ≠ [] → s.rx.length ≤ 4102 →
      drainStep s = .next (byteGuard s) ∧ byteGuard s = { s with guardChecked := true }) ∧
    (s.cfg.guardPerByte = false ∨ s.guardChecked = true →
      ∀ b rest t, s.rx = b :: rest → byteStep b { s with rx := rest, guardChecked := false } = .next t → drainStep s = .next (afterByte s t))

/-- `StaleCheck` (R236; the strict limit is the spec's own choice D40, zeroing the strips and sending `Clear` its choice D16): when a frame time is recorded and more than 2000 ms have elapsed, both strips are blanked, one `Clear` is sent and the time is
erased; otherwise, at exactly 2000 ms among the rest, nothing happens. The framer is not touched. -/
def Obligations.StaleCheckClearsOnce : Prop :=
  ∀ s : State,
    (∀ t, s.lastFrame = some t → 2000 < elapsed s.cfg s.now t →
      staleCheck s = { s with fb := FrameBuffer.blank, sink := s.sink ++ [.clear], lastFrame := none } ∧
      staleCheck (staleCheck s) = staleCheck s) ∧
    (∀ t, s.lastFrame = some t → elapsed s.cfg s.now t ≤ 2000 → staleCheck s = s) ∧ (s.lastFrame = none → staleCheck s = s)

/-- The `STALE` phase (R206): the check in dialect 2, nothing in dialect 1, then `YIELD`. -/
def Obligations.StalePhaseByDialect : Prop :=
  ∀ s : State,
    (s.cfg.dialect = .d2 → staleStep s = { staleCheck s with phase := .yield }) ∧
    (s.cfg.dialect = .d1 → staleStep s = { s with phase := .yield })

/-- Elapsed time (R237, the spec's own choice D15): with an unbounded width the difference; with `n` bits the time advanced since the frame, modulo `2^n`, however often the
stored time has wrapped. -/
def Obligations.ElapsedTimeWraps : Prop :=
  ∀ (c : Config) (t d : Nat),
    (c.timeBits = none → elapsed c (t + d) (stamp c t) = d) ∧
    ∀ n, c.timeBits = some n → elapsed c (t + d) (stamp c t) = d % 2 ^ n

/-- The phases come in the order GUARD, DRAIN, STALE, YIELD, for ever (R202): a step leaves the phase or moves it to the next one, only the loop
moves it, and only the drain may stay. -/
def Obligations.PhasesComeInOrder : Prop :=
  ∀ s t : State, step s = .next t →
    (∀ dt b, s.nextMove = .arrive dt b → t.phase = s.phase) ∧
    (∀ dt, s.nextMove = .loop dt →
      (s.phase = .guard → t.phase = .drain) ∧ (s.phase = .drain → t.phase = .drain ∨ t.phase = .stale) ∧
      (s.phase = .stale → t.phase = .yield) ∧ (s.phase = .yield → t.phase = .guard))

/-- A parked packet waits for ever (R210): while the FIFO is empty no step of any agent, and no passing of time, changes the framer or its buffer. -/
def Obligations.ParkedPacketWaits : Prop :=
  ∀ s t : State, s.rx = [] → step s = .next t → t.pstate = s.pstate ∧ t.count = s.count ∧ t.ptype = s.ptype ∧ t.pkt = s.pkt

/-- No step changes the configuration (R34, R63), and time never decreases (R37). -/
def Obligations.ConfigurationFixedTimeForward : Prop :=
  ∀ s t : State, step s = .next t → t.cfg = s.cfg ∧ s.now ≤ t.now

/-- The output channels only grow (R33). -/
def Obligations.ChannelsAreAppendOnly : Prop :=
  ∀ s t : State, step s = .next t → (∃ lines, t.tx = s.tx ++ lines) ∧ ∃ events, t.sink = s.sink ++ events

/-! ## Reset and the invariants of every run -/

/-- The state after reset, in every configuration: the values of R36, R260 and R261, among them the spec's own choices D9 (strips black), D10 (no sink
event), D13 (banner on `TX`), D14 (no frame time) and D36 (FIFO empty). The packet buffer, unspecified there, is not mentioned. -/
def Obligations.ResetValues : Prop :=
  ∀ c : Config,
    (State.resetOf c).pstate = .awaitHeader0 ∧ (State.resetOf c).count = 0 ∧ (State.resetOf c).ptype = none ∧
    (State.resetOf c).lastFrame = none ∧ (State.resetOf c).rx = [] ∧ (State.resetOf c).phase = .guard ∧
    (State.resetOf c).tx = c.bannerLines ∧ (State.resetOf c).sink = [] ∧ (State.resetOf c).cfg = c ∧
    ∀ st i, i < 1024 → (State.resetOf c).fb.pixel st i = some ⟨0, 0, 0⟩

/-- The invariants hold after reset, in every configuration the spec admits. -/
def Obligations.InvariantsHoldAtReset : Prop :=
  ∀ c : Config, c.wf = true →
    (State.resetOf c).Inv ∧ (State.resetOf c).checkFits ∧ (State.resetOf c).txFits ∧ (State.resetOf c).clearsFit ∧ (State.resetOf c).pixelsFit

/-- Every step keeps the invariant of every run (R20, R23 to R26, R28, R30, R31), and a guard check waits for its `pop` only inside the drain, before a
byte, in a dialect 2 build that has it (R204, R205). -/
def Obligations.StepKeepsTheInvariant : Prop :=
  ∀ s t : State, step s = .next t → (s.Inv → t.Inv) ∧ (s.checkFits → t.checkFits)

/-- The framer invariant (R26) in a state of a run. -/
def Obligations.CountStaysBelowThePacketLength : Prop :=
  ∀ s : State, s.Inv →
    s.count ≤ maxPkt s.cfg.dialect ∧ s.count < 2 ^ s.cfg.cntBits ∧ s.pkt.wf = true ∧ (∀ a, (s.pkt.read a).isSome = true ↔ a < s.count) ∧
    (s.pstate = .accumulating → s.count < expTotal s.ptype ∧ expTotal s.ptype ≤ maxPkt s.cfg.dialect)

/-- The loop never halts (R208, R230): in a state of a run every step, whoever moves, answers a next state, and after finitely many steps the next
move is the loop's, whatever the peer sends (the weak fairness of R208, with log 15). -/
def Obligations.EveryStepAnswersANextState : Prop :=
  ∀ s : State, s.Inv → (∃ t, step s = .next t) ∧ ∃ (n : Nat) (t : State) (dt : Nat), runSteps n s = .next t ∧ t.nextMove = .loop dt

/-- A configuration the spec says to refuse, one with `RX_CAP` = 0 (I3), INFO lines not ending in OK (I6) or `CNT_BITS` below 12 (I11), is refused, and that is the only refusal; that `step` is what refuses it is the model's
choice (log 20). -/
def Obligations.RefusedExactlyForABadConfiguration : Prop :=
  ∀ (s : State) (r : Refusal), step s = .refused r ↔
    (s.cfg.rxCap = 0 ∨ s.cfg.infoLines.getLast? ≠ some "OK" ∨ s.cfg.cntBits < 12) ∧ r = .badConfig

/-- `TX` holds the banner and then only replies (R146): in dialect 1 `"PONG"` and lines of `INFO_LINES`, in dialect 2 nothing. -/
def Obligations.StepKeepsOnlyRepliesOnTx : Prop := ∀ s t : State, s.txFits → step s = .next t → t.txFits

/-- At most one `Clear` between two frames (R238), none in dialect 1 (R239). -/
def Obligations.StepKeepsOneClearPerFrame : Prop := ∀ s t : State, s.clearsFit → step s = .next t → t.clearsFit

/-- Only `WHITE` and `BLACK` in dialect 1 and only grays in dialect 2 ever stand in the strips or leave in a frame (R27). -/
def Obligations.StepKeepsPixelKinds : Prop := ∀ s t : State, s.pixelsFit → step s = .next t → t.pixelsFit
end

