-- ==== Sys2Proof/Laws/State.lean ====
section
/-! SUPPORT. One lemma per field per named update of the state, each true by definition, so that no proof unfolds a record update. -/

namespace Sys2Proof.Machine

/-! ### reset -/

@[simp] theorem resetOf_cfg (c : Config) : (State.resetOf c).cfg = c := rfl
@[simp] theorem ctx_dialect (s : State) : s.ctx.dialect = s.cfg.dialect := rfl
@[simp] theorem ctx_pstate (s : State) : s.ctx.pstate = s.pstate := rfl
@[simp] theorem ctx_count (s : State) : s.ctx.count = s.count := rfl
@[simp] theorem ctx_ptype (s : State) : s.ctx.ptype = s.ptype := rfl

/-! ### pktWrite -/

@[simp] theorem pktWrite_cfg (i : Nat) (b : Byte) (s : State) : (s.pktWrite i b).cfg = s.cfg := rfl
@[simp] theorem pktWrite_pstate (i : Nat) (b : Byte) (s : State) : (s.pktWrite i b).pstate = s.pstate := rfl
@[simp] theorem pktWrite_count (i : Nat) (b : Byte) (s : State) : (s.pktWrite i b).count = s.count := rfl
@[simp] theorem pktWrite_ptype (i : Nat) (b : Byte) (s : State) : (s.pktWrite i b).ptype = s.ptype := rfl
@[simp] theorem pktWrite_pkt (i : Nat) (b : Byte) (s : State) : (s.pktWrite i b).pkt = s.pkt.write i b := rfl
@[simp] theorem pktWrite_fb (i : Nat) (b : Byte) (s : State) : (s.pktWrite i b).fb = s.fb := rfl
@[simp] theorem pktWrite_lastFrame (i : Nat) (b : Byte) (s : State) : (s.pktWrite i b).lastFrame = s.lastFrame := rfl
@[simp] theorem pktWrite_rx (i : Nat) (b : Byte) (s : State) : (s.pktWrite i b).rx = s.rx := rfl
@[simp] theorem pktWrite_phase (i : Nat) (b : Byte) (s : State) : (s.pktWrite i b).phase = s.phase := rfl
@[simp] theorem pktWrite_guardChecked (i : Nat) (b : Byte) (s : State) : (s.pktWrite i b).guardChecked = s.guardChecked := rfl
@[simp] theorem pktWrite_tx (i : Nat) (b : Byte) (s : State) : (s.pktWrite i b).tx = s.tx := rfl
@[simp] theorem pktWrite_sink (i : Nat) (b : Byte) (s : State) : (s.pktWrite i b).sink = s.sink := rfl
@[simp] theorem pktWrite_now (i : Nat) (b : Byte) (s : State) : (s.pktWrite i b).now = s.now := rfl
@[simp] theorem pktWrite_sched (i : Nat) (b : Byte) (s : State) : (s.pktWrite i b).sched = s.sched := rfl
@[simp] theorem pktWrite_freeIx (i : Nat) (b : Byte) (s : State) : (s.pktWrite i b).freeIx = s.freeIx := rfl

/-! ### accept -/

@[simp] theorem accept_cfg (i : Nat) (b : Byte) (s : State) : (s.accept i b).cfg = s.cfg := rfl
@[simp] theorem accept_pstate (i : Nat) (b : Byte) (s : State) : (s.accept i b).pstate = s.pstate := rfl
@[simp] theorem accept_count (i : Nat) (b : Byte) (s : State) : (s.accept i b).count = i + 1 := rfl
@[simp] theorem accept_ptype (i : Nat) (b : Byte) (s : State) : (s.accept i b).ptype = s.ptype := rfl
@[simp] theorem accept_pkt (i : Nat) (b : Byte) (s : State) : (s.accept i b).pkt = s.pkt.write i b := rfl
@[simp] theorem accept_fb (i : Nat) (b : Byte) (s : State) : (s.accept i b).fb = s.fb := rfl
@[simp] theorem accept_lastFrame (i : Nat) (b : Byte) (s : State) : (s.accept i b).lastFrame = s.lastFrame := rfl
@[simp] theorem accept_rx (i : Nat) (b : Byte) (s : State) : (s.accept i b).rx = s.rx := rfl
@[simp] theorem accept_phase (i : Nat) (b : Byte) (s : State) : (s.accept i b).phase = s.phase := rfl
@[simp] theorem accept_guardChecked (i : Nat) (b : Byte) (s : State) : (s.accept i b).guardChecked = s.guardChecked := rfl
@[simp] theorem accept_tx (i : Nat) (b : Byte) (s : State) : (s.accept i b).tx = s.tx := rfl
@[simp] theorem accept_sink (i : Nat) (b : Byte) (s : State) : (s.accept i b).sink = s.sink := rfl
@[simp] theorem accept_now (i : Nat) (b : Byte) (s : State) : (s.accept i b).now = s.now := rfl
@[simp] theorem accept_sched (i : Nat) (b : Byte) (s : State) : (s.accept i b).sched = s.sched := rfl
@[simp] theorem accept_freeIx (i : Nat) (b : Byte) (s : State) : (s.accept i b).freeIx = s.freeIx := rfl

/-! ### parserReset -/

@[simp] theorem parserReset_cfg (c : Cause) (s : State) : (parserReset c s).cfg = s.cfg := rfl
@[simp] theorem parserReset_pstate (c : Cause) (s : State) : (parserReset c s).pstate = .awaitHeader0 := rfl
@[simp] theorem parserReset_count (c : Cause) (s : State) : (parserReset c s).count = 0 := rfl
@[simp] theorem parserReset_ptype (c : Cause) (s : State) : (parserReset c s).ptype = none := rfl
@[simp] theorem parserReset_pkt (c : Cause) (s : State) : (parserReset c s).pkt = [] := rfl
@[simp] theorem parserReset_fb (c : Cause) (s : State) : (parserReset c s).fb = s.fb := rfl
@[simp] theorem parserReset_lastFrame (c : Cause) (s : State) : (parserReset c s).lastFrame = s.lastFrame := rfl
@[simp] theorem parserReset_rx (c : Cause) (s : State) : (parserReset c s).rx = s.rx := rfl
@[simp] theorem parserReset_phase (c : Cause) (s : State) : (parserReset c s).phase = s.phase := rfl
@[simp] theorem parserReset_guardChecked (c : Cause) (s : State) : (parserReset c s).guardChecked = s.guardChecked := rfl
@[simp] theorem parserReset_tx (c : Cause) (s : State) : (parserReset c s).tx = s.tx := rfl
@[simp] theorem parserReset_sink (c : Cause) (s : State) : (parserReset c s).sink = s.sink := rfl
@[simp] theorem parserReset_now (c : Cause) (s : State) : (parserReset c s).now = s.now := rfl
@[simp] theorem parserReset_sched (c : Cause) (s : State) : (parserReset c s).sched = s.sched := rfl
@[simp] theorem parserReset_freeIx (c : Cause) (s : State) : (parserReset c s).freeIx = s.freeIx := rfl

/-! ### setPhase -/

@[simp] theorem setPhase_cfg (p : Phase) (s : State) : (s.setPhase p).cfg = s.cfg := rfl
@[simp] theorem setPhase_pstate (p : Phase) (s : State) : (s.setPhase p).pstate = s.pstate := rfl
@[simp] theorem setPhase_count (p : Phase) (s : State) : (s.setPhase p).count = s.count := rfl
@[simp] theorem setPhase_ptype (p : Phase) (s : State) : (s.setPhase p).ptype = s.ptype := rfl
@[simp] theorem setPhase_pkt (p : Phase) (s : State) : (s.setPhase p).pkt = s.pkt := rfl
@[simp] theorem setPhase_fb (p : Phase) (s : State) : (s.setPhase p).fb = s.fb := rfl
@[simp] theorem setPhase_lastFrame (p : Phase) (s : State) : (s.setPhase p).lastFrame = s.lastFrame := rfl
@[simp] theorem setPhase_rx (p : Phase) (s : State) : (s.setPhase p).rx = s.rx := rfl
@[simp] theorem setPhase_phase (p : Phase) (s : State) : (s.setPhase p).phase = p := rfl
@[simp] theorem setPhase_guardChecked (p : Phase) (s : State) : (s.setPhase p).guardChecked = s.guardChecked := rfl
@[simp] theorem setPhase_tx (p : Phase) (s : State) : (s.setPhase p).tx = s.tx := rfl
@[simp] theorem setPhase_sink (p : Phase) (s : State) : (s.setPhase p).sink = s.sink := rfl
@[simp] theorem setPhase_now (p : Phase) (s : State) : (s.setPhase p).now = s.now := rfl
@[simp] theorem setPhase_sched (p : Phase) (s : State) : (s.setPhase p).sched = s.sched := rfl
@[simp] theorem setPhase_freeIx (p : Phase) (s : State) : (s.setPhase p).freeIx = s.freeIx := rfl

/-! ### setRx -/

@[simp] theorem setRx_cfg (q : List Byte) (s : State) : (s.setRx q).cfg = s.cfg := rfl
@[simp] theorem setRx_pstate (q : List Byte) (s : State) : (s.setRx q).pstate = s.pstate := rfl
@[simp] theorem setRx_count (q : List Byte) (s : State) : (s.setRx q).count = s.count := rfl
@[simp] theorem setRx_ptype (q : List Byte) (s : State) : (s.setRx q).ptype = s.ptype := rfl
@[simp] theorem setRx_pkt (q : List Byte) (s : State) : (s.setRx q).pkt = s.pkt := rfl
@[simp] theorem setRx_fb (q : List Byte) (s : State) : (s.setRx q).fb = s.fb := rfl
@[simp] theorem setRx_lastFrame (q : List Byte) (s : State) : (s.setRx q).lastFrame = s.lastFrame := rfl
@[simp] theorem setRx_rx (q : List Byte) (s : State) : (s.setRx q).rx = q := rfl
@[simp] theorem setRx_phase (q : List Byte) (s : State) : (s.setRx q).phase = s.phase := rfl
@[simp] theorem setRx_guardChecked (q : List Byte) (s : State) : (s.setRx q).guardChecked = s.guardChecked := rfl
@[simp] theorem setRx_tx (q : List Byte) (s : State) : (s.setRx q).tx = s.tx := rfl
@[simp] theorem setRx_sink (q : List Byte) (s : State) : (s.setRx q).sink = s.sink := rfl
@[simp] theorem setRx_now (q : List Byte) (s : State) : (s.setRx q).now = s.now := rfl
@[simp] theorem setRx_sched (q : List Byte) (s : State) : (s.setRx q).sched = s.sched := rfl
@[simp] theorem setRx_freeIx (q : List Byte) (s : State) : (s.setRx q).freeIx = s.freeIx := rfl

/-! ### pop -/

@[simp] theorem pop_cfg (q : List Byte) (s : State) : (s.pop q).cfg = s.cfg := rfl
@[simp] theorem pop_pstate (q : List Byte) (s : State) : (s.pop q).pstate = s.pstate := rfl
@[simp] theorem pop_count (q : List Byte) (s : State) : (s.pop q).count = s.count := rfl
@[simp] theorem pop_ptype (q : List Byte) (s : State) : (s.pop q).ptype = s.ptype := rfl
@[simp] theorem pop_pkt (q : List Byte) (s : State) : (s.pop q).pkt = s.pkt := rfl
@[simp] theorem pop_fb (q : List Byte) (s : State) : (s.pop q).fb = s.fb := rfl
@[simp] theorem pop_lastFrame (q : List Byte) (s : State) : (s.pop q).lastFrame = s.lastFrame := rfl
@[simp] theorem pop_rx (q : List Byte) (s : State) : (s.pop q).rx = q := rfl
@[simp] theorem pop_phase (q : List Byte) (s : State) : (s.pop q).phase = s.phase := rfl
@[simp] theorem pop_guardChecked (q : List Byte) (s : State) : (s.pop q).guardChecked = false := rfl
@[simp] theorem pop_tx (q : List Byte) (s : State) : (s.pop q).tx = s.tx := rfl
@[simp] theorem pop_sink (q : List Byte) (s : State) : (s.pop q).sink = s.sink := rfl
@[simp] theorem pop_now (q : List Byte) (s : State) : (s.pop q).now = s.now := rfl
@[simp] theorem pop_sched (q : List Byte) (s : State) : (s.pop q).sched = s.sched := rfl
@[simp] theorem pop_freeIx (q : List Byte) (s : State) : (s.pop q).freeIx = s.freeIx := rfl

/-! ### passGuard -/

@[simp] theorem passGuard_cfg (s : State) : (s.passGuard).cfg = s.cfg := rfl
@[simp] theorem passGuard_pstate (s : State) : (s.passGuard).pstate = s.pstate := rfl
@[simp] theorem passGuard_count (s : State) : (s.passGuard).count = s.count := rfl
@[simp] theorem passGuard_ptype (s : State) : (s.passGuard).ptype = s.ptype := rfl
@[simp] theorem passGuard_pkt (s : State) : (s.passGuard).pkt = s.pkt := rfl
@[simp] theorem passGuard_fb (s : State) : (s.passGuard).fb = s.fb := rfl
@[simp] theorem passGuard_lastFrame (s : State) : (s.passGuard).lastFrame = s.lastFrame := rfl
@[simp] theorem passGuard_rx (s : State) : (s.passGuard).rx = s.rx := rfl
@[simp] theorem passGuard_phase (s : State) : (s.passGuard).phase = s.phase := rfl
@[simp] theorem passGuard_guardChecked (s : State) : (s.passGuard).guardChecked = true := rfl
@[simp] theorem passGuard_tx (s : State) : (s.passGuard).tx = s.tx := rfl
@[simp] theorem passGuard_sink (s : State) : (s.passGuard).sink = s.sink := rfl
@[simp] theorem passGuard_now (s : State) : (s.passGuard).now = s.now := rfl
@[simp] theorem passGuard_sched (s : State) : (s.passGuard).sched = s.sched := rfl
@[simp] theorem passGuard_freeIx (s : State) : (s.passGuard).freeIx = s.freeIx := rfl

/-! ### txLine -/

@[simp] theorem txLine_cfg (l : Line) (s : State) : (s.txLine l).cfg = s.cfg := rfl
@[simp] theorem txLine_pstate (l : Line) (s : State) : (s.txLine l).pstate = s.pstate := rfl
@[simp] theorem txLine_count (l : Line) (s : State) : (s.txLine l).count = s.count := rfl
@[simp] theorem txLine_ptype (l : Line) (s : State) : (s.txLine l).ptype = s.ptype := rfl
@[simp] theorem txLine_pkt (l : Line) (s : State) : (s.txLine l).pkt = s.pkt := rfl
@[simp] theorem txLine_fb (l : Line) (s : State) : (s.txLine l).fb = s.fb := rfl
@[simp] theorem txLine_lastFrame (l : Line) (s : State) : (s.txLine l).lastFrame = s.lastFrame := rfl
@[simp] theorem txLine_rx (l : Line) (s : State) : (s.txLine l).rx = s.rx := rfl
@[simp] theorem txLine_phase (l : Line) (s : State) : (s.txLine l).phase = s.phase := rfl
@[simp] theorem txLine_guardChecked (l : Line) (s : State) : (s.txLine l).guardChecked = s.guardChecked := rfl
@[simp] theorem txLine_tx (l : Line) (s : State) : (s.txLine l).tx = s.tx ++ [l] := rfl
@[simp] theorem txLine_sink (l : Line) (s : State) : (s.txLine l).sink = s.sink := rfl
@[simp] theorem txLine_now (l : Line) (s : State) : (s.txLine l).now = s.now := rfl
@[simp] theorem txLine_sched (l : Line) (s : State) : (s.txLine l).sched = s.sched := rfl
@[simp] theorem txLine_freeIx (l : Line) (s : State) : (s.txLine l).freeIx = s.freeIx := rfl

/-! ### sinkEvent -/

@[simp] theorem sinkEvent_cfg (e : SinkEvent) (s : State) : (s.sinkEvent e).cfg = s.cfg := rfl
@[simp] theorem sinkEvent_pstate (e : SinkEvent) (s : State) : (s.sinkEvent e).pstate = s.pstate := rfl
@[simp] theorem sinkEvent_count (e : SinkEvent) (s : State) : (s.sinkEvent e).count = s.count := rfl
@[simp] theorem sinkEvent_ptype (e : SinkEvent) (s : State) : (s.sinkEvent e).ptype = s.ptype := rfl
@[simp] theorem sinkEvent_pkt (e : SinkEvent) (s : State) : (s.sinkEvent e).pkt = s.pkt := rfl
@[simp] theorem sinkEvent_fb (e : SinkEvent) (s : State) : (s.sinkEvent e).fb = s.fb := rfl
@[simp] theorem sinkEvent_lastFrame (e : SinkEvent) (s : State) : (s.sinkEvent e).lastFrame = s.lastFrame := rfl
@[simp] theorem sinkEvent_rx (e : SinkEvent) (s : State) : (s.sinkEvent e).rx = s.rx := rfl
@[simp] theorem sinkEvent_phase (e : SinkEvent) (s : State) : (s.sinkEvent e).phase = s.phase := rfl
@[simp] theorem sinkEvent_guardChecked (e : SinkEvent) (s : State) : (s.sinkEvent e).guardChecked = s.guardChecked := rfl
@[simp] theorem sinkEvent_tx (e : SinkEvent) (s : State) : (s.sinkEvent e).tx = s.tx := rfl
@[simp] theorem sinkEvent_sink (e : SinkEvent) (s : State) : (s.sinkEvent e).sink = s.sink ++ [e] := rfl
@[simp] theorem sinkEvent_now (e : SinkEvent) (s : State) : (s.sinkEvent e).now = s.now := rfl
@[simp] theorem sinkEvent_sched (e : SinkEvent) (s : State) : (s.sinkEvent e).sched = s.sched := rfl
@[simp] theorem sinkEvent_freeIx (e : SinkEvent) (s : State) : (s.sinkEvent e).freeIx = s.freeIx := rfl

/-! ### emit -/

@[simp] theorem emit_cfg (s : State) : (s.emit).cfg = s.cfg := rfl
@[simp] theorem emit_pstate (s : State) : (s.emit).pstate = s.pstate := rfl
@[simp] theorem emit_count (s : State) : (s.emit).count = s.count := rfl
@[simp] theorem emit_ptype (s : State) : (s.emit).ptype = s.ptype := rfl
@[simp] theorem emit_pkt (s : State) : (s.emit).pkt = s.pkt := rfl
@[simp] theorem emit_fb (s : State) : (s.emit).fb = s.fb := rfl
@[simp] theorem emit_lastFrame (s : State) : (s.emit).lastFrame = s.lastFrame := rfl
@[simp] theorem emit_rx (s : State) : (s.emit).rx = s.rx := rfl
@[simp] theorem emit_phase (s : State) : (s.emit).phase = s.phase := rfl
@[simp] theorem emit_guardChecked (s : State) : (s.emit).guardChecked = s.guardChecked := rfl
@[simp] theorem emit_tx (s : State) : (s.emit).tx = s.tx := rfl
@[simp] theorem emit_sink (s : State) : (s.emit).sink = s.sink ++ [.emit s.fb] := rfl
@[simp] theorem emit_now (s : State) : (s.emit).now = s.now := rfl
@[simp] theorem emit_sched (s : State) : (s.emit).sched = s.sched := rfl
@[simp] theorem emit_freeIx (s : State) : (s.emit).freeIx = s.freeIx := rfl

/-! ### stateRender1 -/

@[simp] theorem stateRender1_cfg (bm : Vector Byte bitmapLen) (s : State) : (s.render1 bm).cfg = s.cfg := rfl
@[simp] theorem stateRender1_pstate (bm : Vector Byte bitmapLen) (s : State) : (s.render1 bm).pstate = s.pstate := rfl
@[simp] theorem stateRender1_count (bm : Vector Byte bitmapLen) (s : State) : (s.render1 bm).count = s.count := rfl
@[simp] theorem stateRender1_ptype (bm : Vector Byte bitmapLen) (s : State) : (s.render1 bm).ptype = s.ptype := rfl
@[simp] theorem stateRender1_pkt (bm : Vector Byte bitmapLen) (s : State) : (s.render1 bm).pkt = s.pkt := rfl
@[simp] theorem stateRender1_fb (bm : Vector Byte bitmapLen) (s : State) : (s.render1 bm).fb = Machine.render1 bm s.fb := rfl
@[simp] theorem stateRender1_lastFrame (bm : Vector Byte bitmapLen) (s : State) : (s.render1 bm).lastFrame = s.lastFrame := rfl
@[simp] theorem stateRender1_rx (bm : Vector Byte bitmapLen) (s : State) : (s.render1 bm).rx = s.rx := rfl
@[simp] theorem stateRender1_phase (bm : Vector Byte bitmapLen) (s : State) : (s.render1 bm).phase = s.phase := rfl
@[simp] theorem stateRender1_guardChecked (bm : Vector Byte bitmapLen) (s : State) : (s.render1 bm).guardChecked = s.guardChecked := rfl
@[simp] theorem stateRender1_tx (bm : Vector Byte bitmapLen) (s : State) : (s.render1 bm).tx = s.tx := rfl
@[simp] theorem stateRender1_sink (bm : Vector Byte bitmapLen) (s : State) : (s.render1 bm).sink = s.sink ++ [.emit (Machine.render1 bm s.fb)] := rfl
@[simp] theorem stateRender1_now (bm : Vector Byte bitmapLen) (s : State) : (s.render1 bm).now = s.now := rfl
@[simp] theorem stateRender1_sched (bm : Vector Byte bitmapLen) (s : State) : (s.render1 bm).sched = s.sched := rfl
@[simp] theorem stateRender1_freeIx (bm : Vector Byte bitmapLen) (s : State) : (s.render1 bm).freeIx = s.freeIx := rfl

/-! ### stateRender8 -/

@[simp] theorem stateRender8_cfg (g : Vector Byte npix) (s : State) : (s.render8 g).cfg = s.cfg := rfl
@[simp] theorem stateRender8_pstate (g : Vector Byte npix) (s : State) : (s.render8 g).pstate = s.pstate := rfl
@[simp] theorem stateRender8_count (g : Vector Byte npix) (s : State) : (s.render8 g).count = s.count := rfl
@[simp] theorem stateRender8_ptype (g : Vector Byte npix) (s : State) : (s.render8 g).ptype = s.ptype := rfl
@[simp] theorem stateRender8_pkt (g : Vector Byte npix) (s : State) : (s.render8 g).pkt = s.pkt := rfl
@[simp] theorem stateRender8_fb (g : Vector Byte npix) (s : State) : (s.render8 g).fb = Machine.render8 g s.fb := rfl
@[simp] theorem stateRender8_lastFrame (g : Vector Byte npix) (s : State) : (s.render8 g).lastFrame = some (stamp s.cfg s.now) := rfl
@[simp] theorem stateRender8_rx (g : Vector Byte npix) (s : State) : (s.render8 g).rx = s.rx := rfl
@[simp] theorem stateRender8_phase (g : Vector Byte npix) (s : State) : (s.render8 g).phase = s.phase := rfl
@[simp] theorem stateRender8_guardChecked (g : Vector Byte npix) (s : State) : (s.render8 g).guardChecked = s.guardChecked := rfl
@[simp] theorem stateRender8_tx (g : Vector Byte npix) (s : State) : (s.render8 g).tx = s.tx := rfl
@[simp] theorem stateRender8_sink (g : Vector Byte npix) (s : State) : (s.render8 g).sink = s.sink ++ [.emit (Machine.render8 g s.fb)] := rfl
@[simp] theorem stateRender8_now (g : Vector Byte npix) (s : State) : (s.render8 g).now = s.now := rfl
@[simp] theorem stateRender8_sched (g : Vector Byte npix) (s : State) : (s.render8 g).sched = s.sched := rfl
@[simp] theorem stateRender8_freeIx (g : Vector Byte npix) (s : State) : (s.render8 g).freeIx = s.freeIx := rfl

/-! ### doPing -/

@[simp] theorem doPing_cfg (s : State) : (doPing s).cfg = s.cfg := rfl
@[simp] theorem doPing_pstate (s : State) : (doPing s).pstate = s.pstate := rfl
@[simp] theorem doPing_count (s : State) : (doPing s).count = s.count := rfl
@[simp] theorem doPing_ptype (s : State) : (doPing s).ptype = s.ptype := rfl
@[simp] theorem doPing_pkt (s : State) : (doPing s).pkt = s.pkt := rfl
@[simp] theorem doPing_fb (s : State) : (doPing s).fb = s.fb := rfl
@[simp] theorem doPing_lastFrame (s : State) : (doPing s).lastFrame = s.lastFrame := rfl
@[simp] theorem doPing_rx (s : State) : (doPing s).rx = s.rx := rfl
@[simp] theorem doPing_phase (s : State) : (doPing s).phase = s.phase := rfl
@[simp] theorem doPing_guardChecked (s : State) : (doPing s).guardChecked = s.guardChecked := rfl
@[simp] theorem doPing_tx (s : State) : (doPing s).tx = s.tx ++ ["PONG"] := rfl
@[simp] theorem doPing_sink (s : State) : (doPing s).sink = s.sink := rfl
@[simp] theorem doPing_now (s : State) : (doPing s).now = s.now := rfl
@[simp] theorem doPing_sched (s : State) : (doPing s).sched = s.sched := rfl
@[simp] theorem doPing_freeIx (s : State) : (doPing s).freeIx = s.freeIx := rfl

/-! ### beginPacket -/

@[simp] theorem beginPacket_cfg (b : Byte) (t : PType) (s : State) : (beginPacket b t s).cfg = s.cfg := rfl
@[simp] theorem beginPacket_pstate (b : Byte) (t : PType) (s : State) : (beginPacket b t s).pstate = .accumulating := rfl
@[simp] theorem beginPacket_count (b : Byte) (t : PType) (s : State) : (beginPacket b t s).count = 3 := rfl
@[simp] theorem beginPacket_ptype (b : Byte) (t : PType) (s : State) : (beginPacket b t s).ptype = some t := rfl
@[simp] theorem beginPacket_pkt (b : Byte) (t : PType) (s : State) : (beginPacket b t s).pkt = s.pkt.write 2 b := rfl
@[simp] theorem beginPacket_fb (b : Byte) (t : PType) (s : State) : (beginPacket b t s).fb = s.fb := rfl
@[simp] theorem beginPacket_lastFrame (b : Byte) (t : PType) (s : State) : (beginPacket b t s).lastFrame = s.lastFrame := rfl
@[simp] theorem beginPacket_rx (b : Byte) (t : PType) (s : State) : (beginPacket b t s).rx = s.rx := rfl
@[simp] theorem beginPacket_phase (b : Byte) (t : PType) (s : State) : (beginPacket b t s).phase = s.phase := rfl
@[simp] theorem beginPacket_guardChecked (b : Byte) (t : PType) (s : State) : (beginPacket b t s).guardChecked = s.guardChecked := rfl
@[simp] theorem beginPacket_tx (b : Byte) (t : PType) (s : State) : (beginPacket b t s).tx = s.tx := rfl
@[simp] theorem beginPacket_sink (b : Byte) (t : PType) (s : State) : (beginPacket b t s).sink = s.sink := rfl
@[simp] theorem beginPacket_now (b : Byte) (t : PType) (s : State) : (beginPacket b t s).now = s.now := rfl
@[simp] theorem beginPacket_sched (b : Byte) (t : PType) (s : State) : (beginPacket b t s).sched = s.sched := rfl
@[simp] theorem beginPacket_freeIx (b : Byte) (t : PType) (s : State) : (beginPacket b t s).freeIx = s.freeIx := rfl

/-! ### discardPending -/

@[simp] theorem discardPending_cfg (s : State) : (discardPending s).cfg = s.cfg := rfl
@[simp] theorem discardPending_pstate (s : State) : (discardPending s).pstate = .awaitHeader0 := rfl
@[simp] theorem discardPending_count (s : State) : (discardPending s).count = 0 := rfl
@[simp] theorem discardPending_ptype (s : State) : (discardPending s).ptype = none := rfl
@[simp] theorem discardPending_pkt (s : State) : (discardPending s).pkt = [] := rfl
@[simp] theorem discardPending_fb (s : State) : (discardPending s).fb = s.fb := rfl
@[simp] theorem discardPending_lastFrame (s : State) : (discardPending s).lastFrame = s.lastFrame := rfl
@[simp] theorem discardPending_rx (s : State) : (discardPending s).rx = [] := rfl
@[simp] theorem discardPending_phase (s : State) : (discardPending s).phase = s.phase := rfl
@[simp] theorem discardPending_guardChecked (s : State) : (discardPending s).guardChecked = s.guardChecked := rfl
@[simp] theorem discardPending_tx (s : State) : (discardPending s).tx = s.tx := rfl
@[simp] theorem discardPending_sink (s : State) : (discardPending s).sink = s.sink := rfl
@[simp] theorem discardPending_now (s : State) : (discardPending s).now = s.now := rfl
@[simp] theorem discardPending_sched (s : State) : (discardPending s).sched = s.sched := rfl
@[simp] theorem discardPending_freeIx (s : State) : (discardPending s).freeIx = s.freeIx := rfl

/-! ### takeInput -/

@[simp] theorem takeInput_cfg (s : State) : (s.takeInput).cfg = s.cfg := rfl
@[simp] theorem takeInput_pstate (s : State) : (s.takeInput).pstate = s.pstate := rfl
@[simp] theorem takeInput_count (s : State) : (s.takeInput).count = s.count := rfl
@[simp] theorem takeInput_ptype (s : State) : (s.takeInput).ptype = s.ptype := rfl
@[simp] theorem takeInput_pkt (s : State) : (s.takeInput).pkt = s.pkt := rfl
@[simp] theorem takeInput_fb (s : State) : (s.takeInput).fb = s.fb := rfl
@[simp] theorem takeInput_lastFrame (s : State) : (s.takeInput).lastFrame = s.lastFrame := rfl
@[simp] theorem takeInput_rx (s : State) : (s.takeInput).rx = s.rx := rfl
@[simp] theorem takeInput_phase (s : State) : (s.takeInput).phase = s.phase := rfl
@[simp] theorem takeInput_guardChecked (s : State) : (s.takeInput).guardChecked = s.guardChecked := rfl
@[simp] theorem takeInput_tx (s : State) : (s.takeInput).tx = s.tx := rfl
@[simp] theorem takeInput_sink (s : State) : (s.takeInput).sink = s.sink := rfl
@[simp] theorem takeInput_now (s : State) : (s.takeInput).now = s.now + s.nextMove.dt := rfl
@[simp] theorem takeInput_sched (s : State) : (s.takeInput).sched = s.coming.2 := rfl
@[simp] theorem takeInput_freeIx (s : State) : (s.takeInput).freeIx = if s.sched.isEmpty then s.freeIx + 1 else s.freeIx := rfl

/-! ### yieldStep -/

@[simp] theorem yieldStep_cfg (s : State) : (yieldStep s).cfg = s.cfg := rfl
@[simp] theorem yieldStep_pstate (s : State) : (yieldStep s).pstate = s.pstate := rfl
@[simp] theorem yieldStep_count (s : State) : (yieldStep s).count = s.count := rfl
@[simp] theorem yieldStep_ptype (s : State) : (yieldStep s).ptype = s.ptype := rfl
@[simp] theorem yieldStep_pkt (s : State) : (yieldStep s).pkt = s.pkt := rfl
@[simp] theorem yieldStep_fb (s : State) : (yieldStep s).fb = s.fb := rfl
@[simp] theorem yieldStep_lastFrame (s : State) : (yieldStep s).lastFrame = s.lastFrame := rfl
@[simp] theorem yieldStep_rx (s : State) : (yieldStep s).rx = s.rx := rfl
@[simp] theorem yieldStep_phase (s : State) : (yieldStep s).phase = .guard := rfl
@[simp] theorem yieldStep_guardChecked (s : State) : (yieldStep s).guardChecked = s.guardChecked := rfl
@[simp] theorem yieldStep_tx (s : State) : (yieldStep s).tx = s.tx := rfl
@[simp] theorem yieldStep_sink (s : State) : (yieldStep s).sink = s.sink := rfl
@[simp] theorem yieldStep_now (s : State) : (yieldStep s).now = s.now := rfl
@[simp] theorem yieldStep_sched (s : State) : (yieldStep s).sched = s.sched := rfl
@[simp] theorem yieldStep_freeIx (s : State) : (yieldStep s).freeIx = s.freeIx := rfl

/-! ### txLines -/

/-- Sending lines one after the other appends them all. -/
theorem txLines_eq (ls : List Line) (s : State) : s.txLines ls = { s with tx := s.tx ++ ls } := by
  induction ls generalizing s with
  | nil => simp [State.txLines]
  | cons l ls ih =>
    have h : s.txLines (l :: ls) = (s.txLine l).txLines ls := rfl
    rw [h, ih]
    simp [State.txLine]

@[simp] theorem doInfo_eq (s : State) : doInfo s = { s with tx := s.tx ++ s.cfg.infoLines } := txLines_eq _ _

/-! ### Fields an operation with a case distinction never changes -/

@[simp] theorem inDialect_self (run : State → State) (s : State) : inDialect s.cfg.dialect run s = run s := by
  simp [inDialect]

theorem inDialect_of_eq {d : Dialect} {s : State} (h : s.cfg.dialect = d) (run : State → State) :
    inDialect d run s = run s := by
  simp [inDialect, h]

theorem inDialect_of_ne {d : Dialect} {s : State} (h : s.cfg.dialect ≠ d) (run : State → State) :
    inDialect d run s = parserReset .srType s := by
  simp [inDialect, h]

end Sys2Proof.Machine
end

