-- ==== Sys2Proof/Laws/Memory.lean ====
section
/-! SUPPORT. The packet buffer's storage: read after write, the canonical form kept by every operation, and what it holds while a
packet is being accumulated. -/

namespace Sys2Proof.Machine

/-- A read after a write to the same offset gives the byte written. -/
@[simp] theorem read_write_same (m : Memory) (i : Nat) (b : Byte) : (m.write i b).read i = some b := by
  induction m with
  | nil => simp [Memory.write, Memory.read]
  | cons c m ih =>
    obtain ⟨a, x⟩ := c
    unfold Memory.write
    split
    · simp [Memory.read]
    · split
      · simp [Memory.read]
      · rename_i h1 h2
        have : a ≠ i := fun h => h2 h.symm
        simp [Memory.read, this, ih]

/-- A write leaves every other offset alone. -/
theorem read_write_other (m : Memory) {i j : Nat} (b : Byte) (h : j ≠ i) : (m.write i b).read j = m.read j := by
  induction m with
  | nil => simp [Memory.write, Memory.read, Ne.symm h]
  | cons c m ih =>
    obtain ⟨a, x⟩ := c
    unfold Memory.write
    split
    · simp [Memory.read, Ne.symm h]
    · split
      · rename_i h1 h2
        subst h2
        simp [Memory.read, Ne.symm h]
      · by_cases ha : a = j
        · simp [Memory.read, ha]
        · simp [Memory.read, ha, ih]

/-- The canonical form in the terms of the list library: offsets strictly rising. -/
theorem wf_cons {a : Nat} {x : Byte} {m : Memory} :
    Memory.wf ((a, x) :: m) = true ↔ (∀ c ∈ m, a < c.1) ∧ Memory.wf m = true := by
  induction m generalizing a x with
  | nil => simp [Memory.wf]
  | cons c m ih =>
    obtain ⟨b, y⟩ := c
    rw [Memory.wf]
    simp only [Bool.and_eq_true, decide_eq_true_eq, ih, List.mem_cons, forall_eq_or_imp]
    constructor
    · rintro ⟨hab, hm, hw⟩
      exact ⟨⟨hab, fun c hc => lt_trans hab (hm c hc)⟩, hm, hw⟩
    · rintro ⟨⟨hab, -⟩, hm, hw⟩
      exact ⟨hab, hm, hw⟩

theorem mem_write {m : Memory} {i : Nat} {b : Byte} {c : Host.Cell} (h : c ∈ m.write i b) : c.1 = i ∨ c ∈ m := by
  induction m with
  | nil => simp [Memory.write] at h; simp [h]
  | cons d m ih =>
    obtain ⟨a, x⟩ := d
    unfold Memory.write at h
    split at h
    · rcases List.mem_cons.1 h with h | h
      · exact .inl (by rw [h])
      · exact .inr h
    · split at h
      · rcases List.mem_cons.1 h with h | h
        · exact .inl (by rw [h])
        · exact .inr (List.mem_cons_of_mem _ h)
      · rcases List.mem_cons.1 h with h | h
        · exact .inr (by rw [h]; exact List.mem_cons_self)
        · exact (ih h).imp id (List.mem_cons_of_mem _)

/-- A write keeps the canonical form. -/
theorem write_wf {m : Memory} (h : m.wf = true) (i : Nat) (b : Byte) : (m.write i b).wf = true := by
  induction m with
  | nil => simp [Memory.write, Memory.wf]
  | cons c m ih =>
    obtain ⟨a, x⟩ := c
    obtain ⟨hlt, hm⟩ := wf_cons.1 h
    unfold Memory.write
    split
    · rename_i hia
      refine wf_cons.2 ⟨?_, h⟩
      intro c hc
      rcases List.mem_cons.1 hc with rfl | hc
      · exact hia
      · exact lt_trans hia (hlt c hc)
    · split
      · rename_i _ hia
        subst hia
        exact wf_cons.2 ⟨hlt, hm⟩
      · rename_i h1 h2
        refine wf_cons.2 ⟨?_, ih hm⟩
        intro c hc
        rcases mem_write hc with h | h
        · omega
        · exact hlt c h

/-! ### Cells that hold a run of bytes -/

@[simp] theorem cellsFrom_nil (i : Nat) : Memory.cellsFrom i [] = [] := rfl

@[simp] theorem cellsFrom_length (i : Nat) (bs : List Byte) : (Memory.cellsFrom i bs).length = bs.length := by
  induction bs generalizing i with
  | nil => rfl
  | cons b bs ih => simp [Memory.cellsFrom, ih]

@[simp] theorem cellsFrom_bytes (i : Nat) (bs : List Byte) : (Memory.cellsFrom i bs).map Prod.snd = bs := by
  induction bs generalizing i with
  | nil => rfl
  | cons b bs ih => simp [Memory.cellsFrom, ih]

/-- The byte just past a run is written by lengthening the run. -/
theorem write_cellsFrom (i : Nat) (bs : List Byte) (b : Byte) :
    (Memory.cellsFrom i bs).write (i + bs.length) b = Memory.cellsFrom i (bs ++ [b]) := by
  induction bs generalizing i with
  | nil => simp [Memory.cellsFrom, Memory.write]
  | cons c bs ih =>
    have h1 : ¬ i + (bs.length + 1) < i := by omega
    have h2 : ¬ i + (bs.length + 1) = i := by omega
    simp only [Memory.cellsFrom, Memory.write, List.length_cons, h1, h2, if_false, List.cons_append]
    rw [← ih (i + 1)]
    congr 2
    omega

theorem mem_cellsFrom {i : Nat} {bs : List Byte} {c : Host.Cell} (h : c ∈ Memory.cellsFrom i bs) : i ≤ c.1 := by
  induction bs generalizing i with
  | nil => simp at h
  | cons b bs ih =>
    rcases List.mem_cons.1 h with rfl | h
    · exact le_refl _
    · exact le_trans (Nat.le_succ i) (ih h)

/-- A run of cells is in canonical form. -/
theorem cellsFrom_wf (i : Nat) (bs : List Byte) : (Memory.cellsFrom i bs).wf = true := by
  induction bs generalizing i with
  | nil => rfl
  | cons b bs ih => exact wf_cons.2 ⟨fun c hc => mem_cellsFrom hc, ih _⟩

/-- What a run of cells reads as. -/
theorem read_cellsFrom (i : Nat) (bs : List Byte) (k : Nat) :
    (Memory.cellsFrom i bs).read (i + k) = bs[k]? := by
  induction bs generalizing i k with
  | nil => simp [Memory.read]
  | cons b bs ih =>
    cases k with
    | zero => simp [Memory.cellsFrom, Memory.read]
    | succ k =>
      have h : i ≠ i + (k + 1) := by omega
      have e : i + (k + 1) = i + 1 + k := by omega
      simp only [Memory.cellsFrom, Memory.read, h, if_false, List.getElem?_cons_succ]
      rw [e, ih]

/-- The run at the front of a run of cells. -/
theorem readRun_cellsFrom_front (i : Nat) (bs : List Byte) (n : Nat) (h : n ≤ bs.length) :
    (Memory.cellsFrom i bs).readRun i n = some (bs.take n) := by
  induction bs generalizing i n with
  | nil => simp only [List.length_nil, Nat.le_zero] at h; subst h; rfl
  | cons b bs ih =>
    cases n with
    | zero => rfl
    | succ n =>
      simp only [Memory.cellsFrom, Memory.readRun, lt_irrefl, if_false, if_true]
      rw [ih (i + 1) n (by simpa using h)]
      simp

/-- The run of `n` bytes at offset `i + k` of a run of cells. -/
theorem readRun_cellsFrom (i : Nat) (bs : List Byte) (k n : Nat) (h : k + n ≤ bs.length) :
    (Memory.cellsFrom i bs).readRun (i + k) n = some ((bs.drop k).take n) := by
  induction k generalizing i bs with
  | zero => simpa using readRun_cellsFrom_front i bs n (by omega)
  | succ k ih =>
    cases bs with
    | nil =>
      simp only [List.length_nil] at h
      omega
    | cons b bs =>
      have e : i + (k + 1) = i + 1 + k := by omega
      cases n with
      | zero => simp [Memory.cellsFrom, Memory.readRun]
      | succ n =>
        have h' : i < i + (k + 1) := by omega
        simp only [Memory.cellsFrom, Memory.readRun, h', if_true, List.drop_succ_cons]
        rw [e]
        exact ih (i + 1) bs (by simp only [List.length_cons] at h; omega)

/-- Below its first offset a canonical buffer holds nothing. -/
theorem read_below {m : Memory} {i : Nat} (h : ∀ c ∈ m, i < c.1) : m.read i = none := by
  induction m with
  | nil => rfl
  | cons c m ih =>
    obtain ⟨a, x⟩ := c
    have ha : i < a := h (a, x) List.mem_cons_self
    have hne : a ≠ i := by omega
    simp only [Memory.read, hne, if_false]
    exact ih fun c hc => h c (List.mem_cons_of_mem _ hc)

/-- The one-pass reading of a run is the reading of its bytes one by one. -/
theorem readRun_of_reads {m : Memory} (hm : m.wf = true) {i : Nat} {l : List Byte}
    (h : ∀ k < l.length, m.read (i + k) = l[k]?) : m.readRun i l.length = some l := by
  induction m generalizing i l with
  | nil =>
    cases l with
    | nil => rfl
    | cons b l =>
      have := h 0 (by simp)
      simp [Memory.read] at this
  | cons c m ih =>
    obtain ⟨a, x⟩ := c
    obtain ⟨hlt, hw⟩ := wf_cons.1 hm
    cases l with
    | nil => simp [Memory.readRun]
    | cons b l =>
      have h0 := h 0 (by simp)
      simp only [Nat.add_zero, List.getElem?_cons_zero] at h0
      by_cases hai : a < i
      · simp only [List.length_cons, Memory.readRun, hai, if_true]
        refine ih hw (l := b :: l) fun k hk => ?_
        have := h k hk
        have hne : a ≠ i + k := by omega
        simpa only [Memory.read, hne, if_false] using this
      · by_cases hai' : a = i
        · subst hai'
          simp only [List.length_cons, Memory.readRun, lt_irrefl, if_false, if_true]
          have hx : x = b := by simpa [Memory.read] using h0
          subst hx
          rw [ih hw (i := a + 1) (l := l)]
          · rfl
          · intro k hk
            have := h (k + 1) (by simpa using hk)
            have hne : a ≠ a + (k + 1) := by omega
            simp only [Memory.read, hne, if_false, List.getElem?_cons_succ] at this
            rw [← this]
            congr 1
            omega
        · have hn : Memory.read ((a, x) :: m) i = none := by
            refine read_below fun c hc => ?_
            rcases List.mem_cons.1 hc with rfl | hc
            · show i < a
              omega
            · have := hlt c hc
              omega
          rw [hn] at h0
          cases h0

/-! ### Payload vectors -/

theorem toVec_toList {n : Nat} (v : Vector Byte n) : toVec n v.toList = some v := by
  unfold toVec
  have h : v.toList.length = n := by simp
  rw [dif_pos h]
  cases v
  simp

theorem toVec_eq_some {n : Nat} {l : List Byte} {v : Vector Byte n} : toVec n l = some v ↔ l = v.toList := by
  constructor
  · intro h
    unfold toVec at h
    split at h
    · cases h; simp
    · cases h
  · rintro rfl
    exact toVec_toList v

theorem takeVec_append {n : Nat} (v : Vector Byte n) (rest : List Byte) : takeVec n (v.toList ++ rest) = some (v, rest) := by
  have h : v.toList.length = n := by simp
  unfold takeVec
  rw [List.take_left' h, toVec_toList, List.drop_left' h]

theorem takeVec_eq_some {n : Nat} {l rest : List Byte} {v : Vector Byte n} (h : takeVec n l = some (v, rest)) :
    l = v.toList ++ rest := by
  unfold takeVec at h
  split at h
  · rename_i w hw
    cases h
    rw [← toVec_eq_some.1 hw, List.take_append_drop]
  · cases h

/-- The payload of a buffer that holds exactly the three bytes of the header and type and then `v`. -/
theorem payload_of_cells {n : Nat} {s : State} {a b c : Byte} {v : Vector Byte n} (hc : s.count = hdrLen + n)
    (hp : s.pkt = Memory.cellsFrom 0 (a :: b :: c :: v.toList)) : s.payload n = some v := by
  have hl : v.toList.length = n := by simp
  have h := readRun_cellsFrom 0 (a :: b :: c :: v.toList) 3 n (by simp; omega)
  have e : s.pkt.readRun hdrLen n = some v.toList := by
    rw [hp, show hdrLen = 0 + 3 from rfl, h, List.drop_succ_cons, List.drop_succ_cons, List.drop_succ_cons, List.drop_zero,
      List.take_of_length_le (le_of_eq hl)]
  unfold State.payload
  rw [if_pos (by omega), e]
  exact toVec_toList v

/-- The payload of a canonical buffer, from the reads of its bytes. -/
theorem payload_of_reads {n : Nat} {s : State} {v : Vector Byte n} (hc : s.count = hdrLen + n) (hw : s.pkt.wf = true)
    (h : ∀ k < n, s.pkt.read (hdrLen + k) = v.toList[k]?) : s.payload n = some v := by
  have hl : v.toList.length = n := by simp
  have e : s.pkt.readRun hdrLen v.toList.length = some v.toList := readRun_of_reads hw fun k hk => h k (by omega)
  have e' : s.pkt.readRun hdrLen n = some v.toList := by
    rw [← e]
    congr 1
    exact hl.symm
  unfold State.payload
  rw [if_pos (by omega), e']
  exact toVec_toList v

end Sys2Proof.Machine
end

