-- ==== Sys2Proof/Laws/Strips.lean ====
section
/-! SUPPORT. The strips: reading a pixel after a write, the strips' lengths kept by every operation, and the closed forms of
`ClearStrips` and `Render8` proved equal to the loops of pixel writes in which the spec gives them (R162, R170). -/

namespace Sys2Proof.Machine

theorem fb_wf_iff (fb : FrameBuffer) : fb.wf = true ↔ fb.left.length = stripLen ∧ fb.right.length = stripLen := by
  simp [FrameBuffer.wf]

theorem strip_length {fb : FrameBuffer} (h : fb.wf = true) (st : Strip) : (fb.strip st).length = stripLen := by
  obtain ⟨hl, hr⟩ := (fb_wf_iff fb).1 h
  cases st
  · exact hl
  · exact hr

/-- Two frame buffers with the same pixels are equal. -/
theorem fb_ext_pixel {a b : FrameBuffer} (h : ∀ st i, a.pixel st i = b.pixel st i) : a = b := by
  obtain ⟨al, ar⟩ := a
  obtain ⟨bl, br⟩ := b
  congr 1
  · exact List.ext_getElem? (h .left)
  · exact List.ext_getElem? (h .right)

/-- Outside the strip no pixel is read. -/
theorem pixel_none {fb : FrameBuffer} (h : fb.wf = true) (st : Strip) {i : Nat} (hi : stripLen ≤ i) : fb.pixel st i = none := by
  unfold FrameBuffer.pixel
  rw [List.getElem?_eq_none_iff, strip_length h st]
  exact hi

/-- An index outside the strip writes nothing (R57, R161). -/
theorem setPixel_out {i : Nat} (h : stripLen ≤ i) (fb : FrameBuffer) (st : Strip) (p : Pixel) : fb.setPixel st i p = fb := by
  unfold FrameBuffer.setPixel
  rw [if_neg (by omega)]

/-- A pixel write keeps the lengths of both strips. -/
theorem setPixel_wf {fb : FrameBuffer} (h : fb.wf = true) (st : Strip) (i : Nat) (p : Pixel) : (fb.setPixel st i p).wf = true := by
  unfold FrameBuffer.setPixel
  split
  · cases st <;> simpa [FrameBuffer.wf] using h
  · exact h

/-- What every pixel reads as after a write. -/
theorem pixel_setPixel {fb : FrameBuffer} (h : fb.wf = true) (st st' : Strip) (i j : Nat) (p : Pixel) :
    (fb.setPixel st i p).pixel st' j = if st = st' ∧ i = j ∧ i < stripLen then some p else fb.pixel st' j := by
  have hl := strip_length h
  unfold FrameBuffer.setPixel
  by_cases hi : i < stripLen
  · simp only [hi, if_true, and_true]
    cases st <;> cases st' <;> simp only [FrameBuffer.pixel, FrameBuffer.strip, reduceCtorEq, false_and, if_false, true_and]
    · have := hl .left
      simp only [FrameBuffer.strip] at this
      by_cases hij : i = j
      · subst hij; simp [this, hi]
      · simp [hij]
    · have := hl .right
      simp only [FrameBuffer.strip] at this
      by_cases hij : i = j
      · subst hij; simp [this, hi]
      · simp [hij]
  · simp [hi]

@[simp] theorem blank_wf : FrameBuffer.blank.wf = true := by simp [FrameBuffer.wf, FrameBuffer.blank]

@[simp] theorem clearStrips_wf (fb : FrameBuffer) : fb.clearStrips.wf = true := blank_wf

/-- Every pixel of the blank frame buffer is black. -/
theorem pixel_blank (st : Strip) (i : Nat) : FrameBuffer.blank.pixel st i = if i < stripLen then some black else none := by
  cases st <;> simp [FrameBuffer.pixel, FrameBuffer.strip, FrameBuffer.blank, List.getElem?_replicate]

/-- A fold of operations that keep the lengths keeps them. -/
theorem foldl_wf {α : Type} (f : FrameBuffer → α → FrameBuffer) (hf : ∀ fb a, fb.wf = true → (f fb a).wf = true) (l : List α)
    {fb : FrameBuffer} (h : fb.wf = true) : (l.foldl f fb).wf = true := by
  induction l generalizing fb with
  | nil => exact h
  | cons a l ih => exact ih (hf fb a h)

/-- `ClearStrips` is the spec's loop of pixel writes (R162). -/
theorem clearStrips_eq_loop {fb : FrameBuffer} (h : fb.wf = true) :
    (List.range stripLen).foldl (fun f i => (f.setPixel .left i black).setPixel .right i black) fb = fb.clearStrips := by
  have step : ∀ n ≤ stripLen, ∀ st i,
      ((List.range n).foldl (fun f i => (f.setPixel .left i black).setPixel .right i black) fb).wf = true ∧
      ((List.range n).foldl (fun f i => (f.setPixel .left i black).setPixel .right i black) fb).pixel st i =
        if i < n then some black else fb.pixel st i := by
    intro n
    induction n with
    | zero => intro _ st i; simp [h]
    | succ n ih =>
      intro hn st i
      obtain ⟨hw, -⟩ := ih (by omega) st i
      rw [List.range_succ, List.foldl_append, List.foldl_cons, List.foldl_nil]
      refine ⟨setPixel_wf (setPixel_wf hw _ _ _) _ _ _, ?_⟩
      rw [pixel_setPixel (setPixel_wf hw _ _ _), pixel_setPixel hw, (ih (by omega) st i).2]
      have hn' : n < stripLen := by omega
      by_cases hi : n = i
      · subst hi; cases st <;> simp [hn']
      · have : i < n + 1 ↔ i < n := by omega
        cases st <;> simp [hi, this]
  apply fb_ext_pixel
  intro st i
  rw [(step stripLen (le_refl _) st i).2]
  show _ = FrameBuffer.blank.pixel st i
  rw [pixel_blank]
  split
  · rfl
  · exact pixel_none h st (by omega)

/-! ### Payload bytes -/

theorem payloadByte_eq {n : Nat} (v : Vector Byte n) {i : Nat} (h : i < n) : payloadByte v i = v[i] := by
  unfold payloadByte
  simp [List.getD, h]

theorem toList_getElem? {n : Nat} (v : Vector Byte n) (i : Nat) :
    v.toList[i]? = if i < n then some (payloadByte v i) else none := by
  unfold payloadByte
  by_cases h : i < n
  · simp [h]
  · simp [h]

/-! ### Render8 -/

/-- One pass of the body of `Render8`'s loop, as the spec writes it (R170). -/
def splitPixel (g : Vector Byte npix) (fb : FrameBuffer) (i : Nat) : FrameBuffer :=
  if i < half then fb.setPixel .left i (gray (payloadByte g i)) else fb.setPixel .right (i - half) (gray (payloadByte g i))

/-- The strips after `Render8`, pixel by pixel. -/
theorem pixel_render8 (g : Vector Byte npix) (fb : FrameBuffer) (st : Strip) (i : Nat) :
    (render8 g fb).pixel st i =
      if i < stripLen then some (gray (payloadByte g (match st with | .left => i | .right => half + i))) else none := by
  unfold render8
  cases st <;> simp only [FrameBuffer.pixel, FrameBuffer.strip, List.getElem?_map, List.getElem?_take, List.getElem?_drop, toList_getElem?]
  · by_cases h : i < 1024
    · have : i < 2048 := by omega
      simp [h, this]
    · simp [h]
  · by_cases h : i < 1024
    · have : 1024 + i < 2048 := by omega
      simp [h, this]
    · have : ¬ 1024 + i < 2048 := by omega
      simp [h, this]

@[simp] theorem render8_wf (g : Vector Byte npix) (fb : FrameBuffer) : (render8 g fb).wf = true := by
  unfold render8
  simp [FrameBuffer.wf, npix, half, stripLen]

/-- `Render8`'s strips are those of the spec's loop of pixel writes (R170). -/
theorem render8_eq_loop (g : Vector Byte npix) {fb : FrameBuffer} (h : fb.wf = true) :
    (List.range npix).foldl (splitPixel g) fb = render8 g fb := by
  have e1 : npix = 2048 := rfl
  have e2 : half = 1024 := rfl
  have e3 : stripLen = 1024 := rfl
  have step : ∀ n ≤ npix, ∀ st i,
      ((List.range n).foldl (splitPixel g) fb).wf = true ∧
      ((List.range n).foldl (splitPixel g) fb).pixel st i =
        if i < stripLen ∧ (match st with | .left => i | .right => half + i) < n then
          some (gray (payloadByte g (match st with | .left => i | .right => half + i))) else fb.pixel st i := by
    intro n
    induction n with
    | zero => intro _ st i; simp [h]
    | succ n ih =>
      intro hn st i
      obtain ⟨hw, -⟩ := ih (by omega) st i
      rw [List.range_succ, List.foldl_append, List.foldl_cons, List.foldl_nil]
      by_cases hh : n < half
      · simp only [splitPixel, hh, if_true]
        refine ⟨setPixel_wf hw _ _ _, ?_⟩
        rw [pixel_setPixel hw, (ih (by omega) st i).2]
        cases st
        · by_cases hi : n = i
          · subst hi; simp [hh]
          · have : i < n + 1 ↔ i < n := by omega
            simp [hi, this]
        · have a : ¬ (half + i < n + 1) := by omega
          have b : ¬ (half + i < n) := by omega
          simp [a, b]
      · simp only [splitPixel, hh, if_false]
        refine ⟨setPixel_wf hw _ _ _, ?_⟩
        rw [pixel_setPixel hw, (ih (by omega) st i).2]
        cases st
        · by_cases hi : i < stripLen
          · have a : i < n + 1 := by omega
            have b : i < n := by omega
            simp [hi, a, b]
          · simp [hi]
        · by_cases hi : n - half = i
          · subst hi
            have a : n - half < stripLen := by omega
            have b : half + (n - half) = n := by omega
            simp [a, b]
          · have : half + i < n + 1 ↔ half + i < n := by omega
            simp only [true_and, hi, false_and, if_false]
            simp only [this]
  apply fb_ext_pixel
  intro st i
  rw [(step npix (le_refl _) st i).2, pixel_render8]
  by_cases hi : i < stripLen
  · have a : (match st with | .left => i | .right => half + i) < npix := by cases st <;> dsimp only <;> omega
    simp only [hi, a, and_self, if_true]
  · simp only [hi, false_and, if_false]
    exact pixel_none h st (by omega)

/-! ### Render1 -/

/-- One pass of the body of `Render1`'s loop keeps the lengths. -/
theorem lightPixel_wf (bm : Vector Byte bitmapLen) (fb : FrameBuffer) (p : Nat) (h : fb.wf = true) : (lightPixel bm fb p).wf = true := by
  unfold lightPixel
  dsimp only
  split
  · exact setPixel_wf h _ _ _
  · exact h
  · exact h

@[simp] theorem render1_wf (bm : Vector Byte bitmapLen) (fb : FrameBuffer) : (render1 bm fb).wf = true := by
  unfold render1
  exact foldl_wf _ (fun fb p h => lightPixel_wf bm fb p h) _ (clearStrips_wf fb)

/-- The previous frame does not matter (R143). -/
theorem render1_prev (bm : Vector Byte bitmapLen) (fb fb' : FrameBuffer) : render1 bm fb = render1 bm fb' := by
  unfold render1
  rfl

theorem render8_prev (g : Vector Byte npix) (fb fb' : FrameBuffer) : render8 g fb = render8 g fb' := by
  unfold render8
  rfl

/-- Logical pixel `p` lights pixel `i` of a line: its bit is set and the transform gives that line and index. -/
def lights (bm : Vector Byte bitmapLen) (st : Strip) (i p : Nat) : Prop :=
  bitmapBit bm p = true ∧ lineOf (p % matrixW) = st ∧ geom (p % matrixW) (p / matrixW) st = some i

/-- What one pass of the loop does to a pixel. -/
theorem pixel_lightPixel (bm : Vector Byte bitmapLen) {fb : FrameBuffer} (h : fb.wf = true) (st : Strip) (i p : Nat) (hi : i < stripLen) :
    (lights bm st i p → (lightPixel bm fb p).pixel st i = some white) ∧
    (¬ lights bm st i p → (lightPixel bm fb p).pixel st i = fb.pixel st i) := by
  unfold lightPixel
  dsimp only
  split
  · rename_i k hb hg
    rw [pixel_setPixel h]
    constructor
    · rintro ⟨-, hl, hg'⟩
      subst hl
      rw [hg] at hg'
      cases hg'
      simp [hi]
    · intro hn
      rw [if_neg]
      rintro ⟨hl, rfl, -⟩
      exact hn ⟨hb, hl, hl ▸ hg⟩
  · rename_i hb hg
    refine ⟨?_, fun _ => rfl⟩
    rintro ⟨-, hl, hg'⟩
    subst hl
    rw [hg] at hg'
    cases hg'
  · rename_i hb
    exact ⟨fun hl => absurd (hl.1.symm.trans hb) (by decide), fun _ => rfl⟩

/-- The strips after the loop over a list of logical pixels: a pixel is white exactly if one of them lights it, or it was. -/
theorem pixel_foldl_lightPixel (bm : Vector Byte bitmapLen) (st : Strip) (i : Nat) (hi : i < stripLen) (l : List Nat) {fb : FrameBuffer}
    (h : fb.wf = true) :
    ((∃ p ∈ l, lights bm st i p) → (l.foldl (lightPixel bm) fb).pixel st i = some white) ∧
    ((∀ p ∈ l, ¬ lights bm st i p) → (l.foldl (lightPixel bm) fb).pixel st i = fb.pixel st i) := by
  induction l generalizing fb with
  | nil => simp
  | cons p l ih =>
    have hw := lightPixel_wf bm fb p h
    have hp := pixel_lightPixel bm h st i p hi
    simp only [List.foldl_cons]
    constructor
    · rintro ⟨q, hq, hl⟩
      by_cases hx : ∃ p ∈ l, lights bm st i p
      · exact (ih hw).1 hx
      · rcases List.mem_cons.1 hq with rfl | hq
        · rw [(ih hw).2 (by simpa using hx)]
          exact hp.1 hl
        · exact absurd ⟨q, hq, hl⟩ hx
    · intro hn
      rw [(ih hw).2 (fun q hq => hn q (List.mem_cons_of_mem _ hq))]
      exact hp.2 (hn p List.mem_cons_self)

/-- The strips after `Render1` (R169): a pixel is white if some logical pixel lights it, and black otherwise. -/
theorem pixel_render1 (bm : Vector Byte bitmapLen) (fb : FrameBuffer) (st : Strip) (i : Nat) (hi : i < stripLen) :
    ((∃ p < npix, lights bm st i p) → (render1 bm fb).pixel st i = some white) ∧
    ((∀ p < npix, ¬ lights bm st i p) → (render1 bm fb).pixel st i = some black) := by
  unfold render1
  have h := pixel_foldl_lightPixel bm st i hi (List.range npix) (clearStrips_wf fb)
  simp only [List.mem_range] at h
  refine ⟨h.1, fun hn => ?_⟩
  rw [h.2 hn]
  show FrameBuffer.blank.pixel st i = _
  rw [pixel_blank, if_pos hi]

end Sys2Proof.Machine
end

