-- ==== Sys2Proof/Laws/Framer.lean ====
section
/-! SUPPORT. What a byte step can do, said once: each arm of `exec` unfolded, and the cases of `Step(S, b)` (R100 to R112). -/

namespace Sys2Proof.Machine

/-! ### The arms -/

@[simp] theorem exec_ping (s : State) : exec .ping s = .next (inDialect .d1 doPing s) := rfl
@[simp] theorem exec_info (s : State) : exec .info s = .next (inDialect .d1 doInfo s) := rfl
@[simp] theorem exec_led1bit (bm : Vector Byte bitmapLen) (s : State) :
    exec (.led1bit bm) s = .next (inDialect .d1 (State.render1 bm) s) := rfl
@[simp] theorem exec_led8 (g : Vector Byte npix) (s : State) :
    exec (.led8 g) s = .next (inDialect .d2 (State.render8 g) s) := rfl
@[simp] theorem exec_h0Accept (s : State) : exec .h0Accept s = .next { s.accept 0 hdr0 with pstate := .awaitHeader1 } := rfl
@[simp] theorem exec_h0Discard (b : Byte) (s : State) : exec (.h0Discard b) s = .next s := rfl
@[simp] theorem exec_h1Accept (s : State) : exec .h1Accept s = .next { s.accept 1 hdr1 with pstate := .awaitType } := rfl
@[simp] theorem exec_h1Reset (b : Byte) (s : State) : exec (.h1Reset b) s = .next (parserReset .srHdr1 s) := rfl
@[simp] theorem exec_t1Ping (s : State) : exec .t1Ping s = .next (inDialect .d1 (query tPing doPing) s) := rfl
@[simp] theorem exec_t1Info (s : State) : exec .t1Info s = .next (inDialect .d1 (query tInfo doInfo) s) := rfl
@[simp] theorem exec_t1Led1 (s : State) : exec .t1Led1 s = .next (inDialect .d1 (beginPacket tLed1 .led1bit) s) := rfl
@[simp] theorem exec_t1Reset (b : Byte) (s : State) : exec (.t1Reset b) s = .next (parserReset .srType s) := rfl
@[simp] theorem exec_t2Led8 (s : State) : exec .t2Led8 s = .next (inDialect .d2 (beginPacket tLed8 .led8) s) := rfl
@[simp] theorem exec_t2Reset (b : Byte) (s : State) : exec (.t2Reset b) s = .next (parserReset .srType s) := rfl
@[simp] theorem exec_accBound (b : Byte) (s : State) : exec (.accBound b) s = .next (parserReset .srBound s) := rfl

/-- A payload byte that does not complete the packet (R111). -/
theorem exec_accAppend_more {s : State} (b : Byte) (h1 : s.count + 1 < expTotal s.ptype) (h2 : s.count < maxPkt s.cfg.dialect) :
    exec (.accAppend b) s = .next (s.accept s.count b) := by
  show execAccAppend b s = _
  unfold execAccAppend
  rw [if_pos ⟨by omega, h2⟩, if_neg (by omega)]

/-- The payload byte that completes the packet (R111). -/
theorem exec_accAppend_last {s : State} (b : Byte) (h1 : s.count + 1 = expTotal s.ptype) (h2 : s.count < maxPkt s.cfg.dialect) :
    exec (.accAppend b) s = dispatchPacket (s.accept s.count b) := by
  show execAccAppend b s = _
  unfold execAccAppend
  rw [if_pos ⟨by omega, h2⟩, if_pos h1]

/-- A byte at or beyond the expected total, or at the end of the buffer (R58, R112). -/
theorem exec_accAppend_bound {s : State} (b : Byte) (h : expTotal s.ptype ≤ s.count ∨ maxPkt s.cfg.dialect ≤ s.count) :
    exec (.accAppend b) s = .next (parserReset .srBound s) := by
  show execAccAppend b s = _
  unfold execAccAppend
  rw [if_neg (by omega)]

/-- A complete LED-1BIT packet is rendered from its payload, and the framer resets (R111, R143). -/
theorem dispatchPacket_led1 {s : State} {bm : Vector Byte bitmapLen} (h : s.ptype = some .led1bit) (hp : s.payload bitmapLen = some bm) :
    dispatchPacket s = .next (parserReset .srDone (s.render1 bm)) := by
  simp [dispatchPacket, h, hp]

/-- A complete dialect 2 LED packet (R111, R144). -/
theorem dispatchPacket_led8 {s : State} {g : Vector Byte npix} (h : s.ptype = some .led8) (hp : s.payload npix = some g) :
    dispatchPacket s = .next (parserReset .srDone (s.render8 g)) := by
  simp [dispatchPacket, h, hp]

/-! ### The byte step -/

/-- Everything `Step(S, b)` can do (R100 to R112). -/
theorem byteStep_cases (b : Byte) (s : State) :
    (s.pstate = .awaitHeader0 ∧ b = hdr0 ∧ byteStep b s = .next { s.accept 0 hdr0 with pstate := .awaitHeader1 }) ∨
    (s.pstate = .awaitHeader0 ∧ b ≠ hdr0 ∧ byteStep b s = .next s) ∨
    (s.pstate = .awaitHeader1 ∧ b = hdr1 ∧ byteStep b s = .next { s.accept 1 hdr1 with pstate := .awaitType }) ∨
    (s.pstate = .awaitHeader1 ∧ b ≠ hdr1 ∧ byteStep b s = .next (parserReset .srHdr1 s)) ∨
    (s.pstate = .awaitType ∧ s.cfg.dialect = .d1 ∧ b = tPing ∧ byteStep b s = .next (query tPing doPing s)) ∨
    (s.pstate = .awaitType ∧ s.cfg.dialect = .d1 ∧ b = tInfo ∧ byteStep b s = .next (query tInfo doInfo s)) ∨
    (s.pstate = .awaitType ∧ s.cfg.dialect = .d1 ∧ b = tLed1 ∧ byteStep b s = .next (beginPacket tLed1 .led1bit s)) ∨
    (s.pstate = .awaitType ∧ s.cfg.dialect = .d1 ∧ b ≠ tPing ∧ b ≠ tInfo ∧ b ≠ tLed1 ∧ byteStep b s = .next (parserReset .srType s)) ∨
    (s.pstate = .awaitType ∧ s.cfg.dialect = .d2 ∧ b = tLed8 ∧ byteStep b s = .next (beginPacket tLed8 .led8 s)) ∨
    (s.pstate = .awaitType ∧ s.cfg.dialect = .d2 ∧ b ≠ tLed8 ∧ byteStep b s = .next (parserReset .srType s)) ∨
    (s.pstate = .accumulating ∧ (expTotal s.ptype ≤ s.count ∨ maxPkt s.cfg.dialect ≤ s.count) ∧
      byteStep b s = .next (parserReset .srBound s)) ∨
    (s.pstate = .accumulating ∧ s.count + 1 < expTotal s.ptype ∧ s.count < maxPkt s.cfg.dialect ∧
      byteStep b s = .next (s.accept s.count b)) ∨
    (s.pstate = .accumulating ∧ s.count + 1 = expTotal s.ptype ∧ s.count < maxPkt s.cfg.dialect ∧
      byteStep b s = dispatchPacket (s.accept s.count b)) := by
  unfold byteStep decodeByte
  cases hp : s.pstate <;> simp only [ctx_pstate, hp, reduceCtorEq, false_and, true_and, false_or, or_false]
  · by_cases hb : b = hdr0
    · left; exact ⟨hb, by simp [hb]⟩
    · right; exact ⟨hb, by rw [if_neg hb, exec_h0Discard]⟩
  · by_cases hb : b = hdr1
    · left; exact ⟨hb, by simp [hb]⟩
    · right; exact ⟨hb, by rw [if_neg hb, exec_h1Reset]⟩
  · cases hd : s.cfg.dialect <;> simp only [ctx_dialect, hd, reduceCtorEq, false_and, true_and, false_or, or_false]
    · by_cases h1 : b = tPing
      · left; exact ⟨h1, by simp [h1, inDialect_of_eq hd]⟩
      right
      by_cases h2 : b = tInfo
      · left; exact ⟨h2, by rw [if_neg h1, if_pos h2, exec_t1Info, inDialect_of_eq hd]⟩
      right
      by_cases h3 : b = tLed1
      · left; exact ⟨h3, by rw [if_neg h1, if_neg h2, if_pos h3, exec_t1Led1, inDialect_of_eq hd]⟩
      right
      exact ⟨h1, h2, h3, by rw [if_neg h1, if_neg h2, if_neg h3, exec_t1Reset]⟩
    · by_cases h1 : b = tLed8
      · left; exact ⟨h1, by rw [if_pos h1, exec_t2Led8, inDialect_of_eq hd]⟩
      · right; exact ⟨h1, by rw [if_neg h1, exec_t2Reset]⟩
  · simp only [ctx_count, ctx_ptype, ge_iff_le]
    by_cases h1 : expTotal s.ptype ≤ s.count
    · left; exact ⟨.inl h1, by rw [if_pos h1, exec_accBound]⟩
    · rw [if_neg h1]
      by_cases h2 : maxPkt s.cfg.dialect ≤ s.count
      · left; exact ⟨.inr h2, exec_accAppend_bound b (.inr h2)⟩
      right
      by_cases h3 : s.count + 1 = expTotal s.ptype
      · right; exact ⟨h3, by omega, exec_accAppend_last b h3 (by omega)⟩
      · left; exact ⟨by omega, by omega, exec_accAppend_more b (by omega) (by omega)⟩

/-- What a dispatch answers when it does not fault. -/
theorem dispatchPacket_cases (s : State) :
    (∃ bm, s.ptype = some .led1bit ∧ s.payload bitmapLen = some bm ∧ dispatchPacket s = .next (parserReset .srDone (s.render1 bm))) ∨
    (∃ g, s.ptype ≠ some .led1bit ∧ s.payload npix = some g ∧ dispatchPacket s = .next (parserReset .srDone (s.render8 g))) ∨
    dispatchPacket s = .fault .pktUnwritten := by
  unfold dispatchPacket
  by_cases h : s.ptype = some .led1bit
  · rw [if_pos h]
    cases hp : s.payload bitmapLen with
    | some bm => exact .inl ⟨bm, h, rfl, rfl⟩
    | none => exact .inr (.inr rfl)
  · rw [if_neg h]
    cases hp : s.payload npix with
    | some g => exact .inr (.inl ⟨g, h, rfl, rfl⟩)
    | none => exact .inr (.inr rfl)

/-- The bytes of one sequence after another. -/
theorem feed_append (as bs : List Byte) (s : State) :
    feed (as ++ bs) s = match feed as s with
      | .next t => feed bs t
      | .fault f => .fault f
      | .refused r => .refused r := by
  induction as generalizing s with
  | nil => rfl
  | cons a as ih =>
    simp only [List.cons_append, feed]
    cases byteStep a s with
    | next t => exact ih t
    | fault f => rfl
    | refused r => rfl

@[simp] theorem feed_cons (b : Byte) (bs : List Byte) (s : State) :
    feed (b :: bs) s = match byteStep b s with
      | .next t => feed bs t
      | .fault f => .fault f
      | .refused r => .refused r := rfl

@[simp] theorem feed_nil (s : State) : feed [] s = .next s := rfl

end Sys2Proof.Machine
end

