-- ==== Sys2Proof/Laws/Loop.lean ====
section
/-! SUPPORT. What a step can do, said once (R200 to R207), and the induction "what every part of a step keeps, a step keeps". -/

namespace Sys2Proof.Machine

/-! ### The coming moves -/

@[simp] theorem coming_listed {s : State} {m : Move} {ms : List Move} (h : s.sched = m :: ms) : s.coming = (m, ms) := by
  simp [State.coming, h]

@[simp] theorem coming_free {s : State} (h : s.sched = []) : s.coming = freeRound s.freeIx := by
  simp [State.coming, h]

/-- Where no move is listed and the peer sends nothing, the loop moves after a free advance of the time. -/
theorem coming_silent {s : State} (h : s.sched = []) (hp : Config.freeArrivals s.freeIx = []) :
    s.coming = (.loop (Config.freeAdvance s.freeIx), []) := by
  rw [coming_free h, freeRound, hp]

/-- A round of free moves is finitely many arrivals and then a step of `LOOP`. -/
theorem freeRound_eq (n : Nat) :
    (freeRound n).1 :: (freeRound n).2 =
      (Config.freeArrivals n).map (fun p => Move.arrive p.1 p.2) ++ [Move.loop (Config.freeAdvance n)] := by
  unfold freeRound
  cases Config.freeArrivals n <;> simp

/-- The inputs of a known move taken. -/
theorem takeInput_of_coming {s : State} {m : Move} {more : List Move} (h : s.coming = (m, more)) :
    s.takeInput = { s with now := s.now + m.dt, sched := more, freeIx := if s.sched = [] then s.freeIx + 1 else s.freeIx } := by
  simp [State.takeInput, State.nextMove, h]

/-- The peer's step. -/
theorem step_arrive {s : State} {dt : Nat} {b : Byte} {more : List Move} (hw : s.cfg.wf = true) (h : s.coming = (.arrive dt b, more)) :
    step s = .next (arrive b s.takeInput) := by
  simp [step, hw, agentStep, State.nextMove, h]

/-- The loop's step. -/
theorem step_loop {s : State} {dt : Nat} {more : List Move} (hw : s.cfg.wf = true) (h : s.coming = (.loop dt, more)) :
    step s = loopStep s.takeInput := by
  simp [step, hw, agentStep, State.nextMove, h]

/-! ### The cases of a step -/

/-- Everything one step of `LOOP` can answer as a next state. -/
theorem loopStep_cases {s t : State} (h : loopStep s = .next t) :
    (s.phase = .guard ∧ t = guardStep s) ∨
    (s.phase = .drain ∧ s.rx = [] ∧ t = s.setPhase .stale) ∨
    (s.phase = .drain ∧ s.rx ≠ [] ∧ s.checkDue = true ∧ t = byteGuard s) ∨
    (∃ b rest u, s.phase = .drain ∧ s.rx = b :: rest ∧ s.checkDue = false ∧
      byteStep b (s.pop rest) = .next u ∧ t = afterByte s u) ∨
    (s.phase = .stale ∧ t = staleStep s) ∨
    (s.phase = .yield ∧ t = yieldStep s) := by
  unfold loopStep at h
  split at h
  · rename_i hp; cases h; exact .inl ⟨hp, rfl⟩
  · rename_i hp
    right
    unfold drainStep at h
    split at h
    · rename_i hr; cases h; exact .inl ⟨hp, hr, rfl⟩
    · rename_i b rest hr
      right
      by_cases hg : s.checkDue = true
      · rw [if_pos hg] at h
        cases h
        exact .inl ⟨hp, by rw [hr]; exact List.cons_ne_nil _ _, hg, rfl⟩
      · rw [if_neg hg] at h
        right
        left
        split at h
        · rename_i u hu; cases h; exact ⟨b, rest, u, hp, hr, by simpa using hg, hu, rfl⟩
        · cases h
        · cases h
  · rename_i hp; cases h; exact .inr (.inr (.inr (.inr (.inl ⟨hp, rfl⟩))))
  · rename_i hp; cases h; exact .inr (.inr (.inr (.inr (.inr ⟨hp, rfl⟩))))

/-- Everything a step can answer as a next state: an arrival, or a step of `LOOP`. -/
theorem step_cases {s t : State} (h : step s = .next t) :
    s.cfg.wf = true ∧
    ((∃ dt b, s.nextMove = .arrive dt b ∧ t = arrive b s.takeInput) ∨
     (∃ dt, s.nextMove = .loop dt ∧ loopStep s.takeInput = .next t)) := by
  unfold step at h
  split at h
  · rename_i hw
    refine ⟨hw, ?_⟩
    unfold agentStep at h
    split at h
    · rename_i dt hm; exact .inr ⟨dt, hm, h⟩
    · rename_i dt b hm; cases h; exact .inl ⟨dt, b, hm, rfl⟩
  · cases h

/-- A property that every part of a step keeps, a step keeps. `P` may speak of the configuration: no part changes it. -/
theorem step_keeps (P : State → Prop)
    (input : ∀ s, P s → P s.takeInput)
    (arrival : ∀ b s, P s → P (arrive b s))
    (phases : ∀ ph s, P s → P (s.setPhase ph))
    (pop : ∀ b rest s, s.rx = b :: rest → P s → P (s.pop rest))
    (checked : ∀ s, P s → P s.passGuard)
    (discard : ∀ s, P s → P (discardPending s))
    (bytes : ∀ b s t, byteStep b s = .next t → P s → P t)
    (stale : ∀ s, s.cfg.dialect = .d2 → P s → P (staleCheck s))
    {s t : State} (h : step s = .next t) (hs : P s) : P t := by
  obtain ⟨-, ⟨dt, b, -, rfl⟩ | ⟨dt, -, hl⟩⟩ := step_cases h
  · exact arrival b _ (input s hs)
  · have h0 := input s hs
    obtain ⟨-, rfl⟩ | ⟨-, -, rfl⟩ | ⟨-, -, -, rfl⟩ | ⟨b, rest, u, -, hr, -, hu, rfl⟩ | ⟨-, rfl⟩ | ⟨-, rfl⟩ := loopStep_cases hl
    · unfold guardStep
      split
      · exact phases _ _ (discard _ h0)
      · exact phases _ _ h0
    · exact phases _ _ h0
    · unfold byteGuard
      split
      · exact phases _ _ (discard _ h0)
      · exact checked _ h0
    · have hu' := bytes b _ u hu (pop b rest _ hr h0)
      unfold afterByte
      split
      · exact phases _ _ hu'
      · exact hu'
    · unfold staleStep
      split
      · rename_i hd
        exact phases _ _ (stale _ hd h0)
      · exact phases _ _ h0
    · exact phases _ _ h0

end Sys2Proof.Machine
end

