-- ==== Sys2Proof/Laws/Invariant.lean ====
section
/-! SUPPORT. The small facts that arguments about the invariants cite: the packet buffer of a run as a list of bytes, the frame of a byte step, of the
drain and of the staleness check, and how the conditions on the sink channel extend. -/

namespace Sys2Proof.Machine

theorem maxPkt_eq (d : Dialect) : maxPkt d = expTotal (some (ledType d)) := by cases d <;> rfl

/-- The buffer of a run is a list of accepted bytes. -/
theorem pktFits_iff (s : State) :
    s.pktFits ↔ ∃ bs, s.pkt = Memory.cellsFrom 0 bs ∧ bs.length = s.count ∧
      bs.take 3 = [hdr0, hdr1, ledTypeByte s.cfg.dialect].take s.count := by
  constructor
  · rintro ⟨h1, h2, h3⟩
    exact ⟨_, h1, by simpa using h2, h3⟩
  · rintro ⟨bs, h1, h2, h3⟩
    exact ⟨by rw [h1, cellsFrom_bytes], by simpa [h1] using h2, by rw [h1, cellsFrom_bytes]; exact h3⟩

/-- A complete packet's bytes are its first three and its payload. -/
theorem payload_split {bs : List Byte} {a b c : Byte} {n : Nat} (h3 : bs.take 3 = [a, b, c]) (hl : bs.length = 3 + n) :
    ∃ v : Vector Byte n, bs = a :: b :: c :: v.toList := by
  match bs, h3 with
  | x :: y :: z :: r, h3 =>
    simp at h3 hl
    obtain ⟨rfl, rfl, rfl⟩ := h3
    exact ⟨⟨r.toArray, by simp; omega⟩, by simp⟩

/-- A dispatch of anything but a bitmap happens in dialect 2 only: the 259 bytes of dialect 1's buffer hold no other packet. -/
theorem dialect_of_completion {s : State} (h1 : s.count + 1 = expTotal s.ptype) (h2 : s.count < maxPkt s.cfg.dialect)
    (h : s.ptype ≠ some .led1bit) : s.cfg.dialect = .d2 := by
  cases hd : s.cfg.dialect
  · rw [hd] at h2
    cases hp : s.ptype with
    | none => rw [hp] at h1; simp [expTotal] at h1
    | some t =>
      cases t
      · exact absurd hp h
      · rw [hp] at h1; simp [expTotal, maxPkt, lenLed1, lenLed8] at h1 h2; omega
  · rfl

/-- What no byte step touches, and that the channels only grow. -/
theorem byteStep_frame {b : Byte} {s t : State} (h : byteStep b s = .next t) :
    t.cfg = s.cfg ∧ t.now = s.now ∧ t.phase = s.phase ∧ t.guardChecked = s.guardChecked ∧ t.rx = s.rx ∧ t.sched = s.sched ∧ t.freeIx = s.freeIx ∧
      (∃ l, t.tx = s.tx ++ l) ∧ ∃ e, t.sink = s.sink ++ e := by
  rcases byteStep_cases b s with h1 | h1 | h1 | h1 | h1 | h1 | h1 | h1 | h1 | h1 | h1 | h1 | ⟨-, -, -, h1⟩
  all_goals first
    | (obtain ⟨_, _, _, h1⟩ := h1; rw [h1] at h; cases h; simp [query])
    | (obtain ⟨_, _, _, _, _, h1⟩ := h1; rw [h1] at h; cases h; simp)
    | (obtain ⟨_, _, h1⟩ := h1; rw [h1] at h; cases h; simp)
    | skip
  rw [h1] at h
  rcases dispatchPacket_cases (s.accept s.count b) with ⟨bm, -, -, h2⟩ | ⟨g, -, -, h2⟩ | h2 <;> rw [h2] at h <;> cases h <;> simp

theorem overflowed_iff {s : State} : s.overflowed = true ↔ s.cfg.dialect = .d2 ∧ 4102 < s.rx.length := by simp [State.overflowed]

theorem checkDue_iff {s : State} : s.checkDue = true ↔ s.cfg.guardPerByte = true ∧ s.cfg.dialect = .d2 ∧ s.guardChecked = false := by
  simp [State.checkDue, and_assoc]

/-- The drain when a guard check is due. -/
theorem drainStep_check {s : State} (h : s.checkDue = true) (hr : s.rx ≠ []) : drainStep s = .next (byteGuard s) := by
  unfold drainStep
  split
  · rename_i e; exact absurd e hr
  · rw [if_pos h]

/-- What a guard check before a byte does. -/
theorem byteGuard_cases (s : State) :
    (s.overflowed = true ∧ byteGuard s = (discardPending s).setPhase .stale) ∨ (s.overflowed = false ∧ byteGuard s = s.passGuard) := by
  unfold byteGuard
  cases s.overflowed <;> simp

/-- The drain when no guard check is due. -/
theorem drainStep_cons {s : State} {b : Byte} {rest : List Byte} (h : s.checkDue = false) (hr : s.rx = b :: rest) :
    drainStep s = match byteStep b (s.pop rest) with
      | .next t => .next (afterByte s t)
      | .fault f => .fault f
      | .refused r => .refused r := by
  unfold drainStep
  rw [hr]
  simp only []
  rw [if_neg (by rw [h]; simp)]
  all_goals (cases byteStep b (s.pop rest) <;> rfl)

/-- What the staleness check does not touch. -/
theorem staleCheck_frame (s : State) :
    (staleCheck s).cfg = s.cfg ∧ (staleCheck s).pstate = s.pstate ∧ (staleCheck s).count = s.count ∧ (staleCheck s).ptype = s.ptype ∧
      (staleCheck s).pkt = s.pkt ∧ (staleCheck s).rx = s.rx ∧ (staleCheck s).phase = s.phase ∧ (staleCheck s).tx = s.tx ∧
      (staleCheck s).now = s.now ∧ ∃ e, (staleCheck s).sink = s.sink ++ e := by
  unfold staleCheck
  split <;> simp

/-- The condition on `Clear`s over two lists. -/
theorem clearsFollowFrames_append (b : Bool) (es es' : List SinkEvent) :
    clearsFollowFrames b (es ++ es') = (clearsFollowFrames b es && clearsFollowFrames (if es = [] then b else lastIsFrame es) es') := by
  induction es generalizing b with
  | nil => simp [clearsFollowFrames]
  | cons e es ih =>
    have key : (if es = [] then (match e with | .emit _ => true | .clear => false) else lastIsFrame es) = lastIsFrame (e :: es) := by
      cases es with
      | nil => cases e <;> simp [lastIsFrame]
      | cons x xs => simp [lastIsFrame, List.getLast?_cons_cons]
    cases e with
    | emit f => simp only [List.cons_append, clearsFollowFrames, ih, if_neg (List.cons_ne_nil _ _)]; rw [← key]
    | clear => simp only [List.cons_append, clearsFollowFrames, ih, if_neg (List.cons_ne_nil _ _)]; rw [← key, Bool.and_assoc]

/-- A frame buffer fits a dialect's kinds if every pixel of both strips does. -/
theorem kindsFit_of_pixels {fb : FrameBuffer} (hw : fb.wf = true) (d : Dialect)
    (h : ∀ st i, i < 1024 → ∃ p, fb.pixel st i = some p ∧ pixelKind d p) : fb.kindsFit d := by
  have hl : fb.left.length = 1024 ∧ fb.right.length = 1024 := by simpa [FrameBuffer.wf, stripLen] using hw
  constructor
  · intro p hp
    obtain ⟨i, hi, rfl⟩ := List.getElem_of_mem hp
    obtain ⟨q, hq, hk⟩ := h .left i (by omega)
    simp [FrameBuffer.pixel, FrameBuffer.strip, hi] at hq
    rw [hq]
    exact hk
  · intro p hp
    obtain ⟨i, hi, rfl⟩ := List.getElem_of_mem hp
    obtain ⟨q, hq, hk⟩ := h .right i (by omega)
    simp [FrameBuffer.pixel, FrameBuffer.strip, hi] at hq
    rw [hq]
    exact hk

end Sys2Proof.Machine
end

