-- ==== Sys2Proof/Laws/PerInstr.lean ====
section
/-! SUPPORT. Facts stated instruction by instruction: the encoding of every instruction fits its row of the opcode table (R81). -/

namespace Sys2Proof.Laws.EncodingFitsRow

/-- The instruction has exactly one row in the table, and its encoding fits it: a packet's first three bytes have the row's match under its mask, in
the row's dialect and with the row's total length; a byte step's one byte has the row's match under its mask. -/
def Statement (i : Instr) : Prop :=
  match packetDialect i with
  | some d =>
    ∃ r, packetRows.filter (fun r => r.mnemonic == i.mnemonic) = [r] ∧ r.dialect = d ∧ (encode i).length = r.total ∧
      (headWord (encode i)).map (· &&& r.mask) = some r.mtch
  | none => ∃ r b, byteRows.filter (fun r => r.mnemonic == i.mnemonic) = [r] ∧ encode i = [b] ∧ b &&& r.mask = r.mtch

theorem ping : Statement .ping := ⟨_, rfl, rfl, rfl, rfl⟩
theorem info : Statement .info := ⟨_, rfl, rfl, rfl, rfl⟩
theorem led1bit (bm : Vector Byte bitmapLen) : Statement (.led1bit bm) := ⟨_, rfl, rfl, by simp [encode], rfl⟩
theorem led8 (g : Vector Byte npix) : Statement (.led8 g) := ⟨_, rfl, rfl, by simp [encode], rfl⟩
theorem h0Accept : Statement .h0Accept := ⟨_, _, rfl, rfl, rfl⟩
theorem h0Discard (b : Byte) : Statement (.h0Discard b) := ⟨_, _, rfl, rfl, BitVec.and_zero⟩
theorem h1Accept : Statement .h1Accept := ⟨_, _, rfl, rfl, rfl⟩
theorem h1Reset (b : Byte) : Statement (.h1Reset b) := ⟨_, _, rfl, rfl, BitVec.and_zero⟩
theorem t1Ping : Statement .t1Ping := ⟨_, _, rfl, rfl, rfl⟩
theorem t1Info : Statement .t1Info := ⟨_, _, rfl, rfl, rfl⟩
theorem t1Led1 : Statement .t1Led1 := ⟨_, _, rfl, rfl, rfl⟩
theorem t1Reset (b : Byte) : Statement (.t1Reset b) := ⟨_, _, rfl, rfl, BitVec.and_zero⟩
theorem t2Led8 : Statement .t2Led8 := ⟨_, _, rfl, rfl, rfl⟩
theorem t2Reset (b : Byte) : Statement (.t2Reset b) := ⟨_, _, rfl, rfl, BitVec.and_zero⟩
theorem accAppend (b : Byte) : Statement (.accAppend b) := ⟨_, _, rfl, rfl, BitVec.and_zero⟩
theorem accBound (b : Byte) : Statement (.accBound b) := ⟨_, _, rfl, rfl, BitVec.and_zero⟩

end Sys2Proof.Laws.EncodingFitsRow
end

