-- ==== Sys2Proof/Tests/Slice0.lean ====
section
/-! SUPPORT. The model's own tests: ill-formed terms refused, the table's words decoded, small steps with the results of spec/95_test_vectors.md
(each test names its vector), and for every obligation with hypotheses a witness that meets them together, at the boundary of each clause. -/

namespace Sys2Proof.Tests

open Sys2Proof Sys2Proof.Machine

/-! ## Helpers -/

/-- The next state of an outcome, if it is one. -/
def nextOf : Host.Outcome State Fault Refusal → Option State
  | .next t => some t
  | .fault _ => none
  | .refused _ => none

/-- What is decoded, as a mnemonic, the encoded length, and the bytes left. -/
def decoded (d : Dialect) (bs : List Byte) : Option (String × Nat × List Byte) :=
  match decodePacket d bs with
  | .ok (i, rest) => some (i.mnemonic, (encode i).length, rest)
  | .error _ => none

/-- The state after reset in a dialect, `LOOP` to move next. -/
def base (d : Dialect) : State := { State.resetOf { Config.default with dialect := d } with sched := [.loop 0] }

/-- The framer having accepted the header, the type byte and `n` zero bytes of the dialect's LED packet. -/
def accState (d : Dialect) (n : Nat) : State :=
  { base d with
    pstate := .accumulating
    count := 3 + n
    ptype := some (ledType d)
    pkt := Memory.cellsFrom 0 (hdr0 :: hdr1 :: ledTypeByte d :: List.replicate n 0) }

/-- The framer registers that the vectors of 95_test_vectors.md give after a stream. -/
def regs (s : State) : PState × Nat × Option PType := (s.pstate, s.count, s.ptype)

/-- A strip with the given pixels `WHITE` and every other `BLACK`. -/
def litAt (is : List Nat) : List Pixel := (List.range 1024).map fun i => if is.contains i then white else black

/-! ## Ill-formed terms are refused -/

theorem test_wf_h0Discard : (Instr.h0Discard 0xAA).wellFormed = false := by decide
theorem test_wf_h1Reset : (Instr.h1Reset 0xBB).wellFormed = false := by decide
theorem test_wf_t1Reset :
    (Instr.t1Reset 0x03).wellFormed = false ∧ (Instr.t1Reset 0x05).wellFormed = false ∧ (Instr.t1Reset 0x06).wellFormed = false := by decide
theorem test_wf_t2Reset : (Instr.t2Reset 0x01).wellFormed = false := by decide

/-! ## Decoding, from the words of R72, R73 and R81 -/

theorem test_decode_ping : decoded .d1 [0xAA, 0xBB, 0x05] = some ("PING", 3, []) := by decide
theorem test_decode_info : decoded .d1 [0xAA, 0xBB, 0x06, 0x05] = some ("INFO", 3, [0x05]) := by decide
theorem test_decode_led1bit :
    decoded .d1 (0xAA :: 0xBB :: 0x03 :: List.replicate 257 0xAA) = some ("LED1BIT", 259, [0xAA]) := by decide +kernel
theorem test_decode_led8 :
    decoded .d2 (0xAA :: 0xBB :: 0x01 :: List.replicate 2048 0xAA) = some ("LED8", 2051, []) := by decide +kernel
theorem test_decode_h0 :
    decodeByte ⟨.d2, .awaitHeader0, 0, none⟩ 0b10101010 = .h0Accept ∧ decodeByte ⟨.d1, .awaitHeader0, 0, none⟩ 0xBB = .h0Discard 0xBB := by
  decide
theorem test_decode_h1 :
    decodeByte ⟨.d1, .awaitHeader1, 1, none⟩ 0b10111011 = .h1Accept ∧ decodeByte ⟨.d2, .awaitHeader1, 1, none⟩ 0xAA = .h1Reset 0xAA := by
  decide
theorem test_decode_t1 :
    decodeByte ⟨.d1, .awaitType, 2, none⟩ 0b00000101 = .t1Ping ∧ decodeByte ⟨.d1, .awaitType, 2, none⟩ 0b00000110 = .t1Info ∧
    decodeByte ⟨.d1, .awaitType, 2, none⟩ 0b00000011 = .t1Led1 ∧ decodeByte ⟨.d1, .awaitType, 2, none⟩ 0x01 = .t1Reset 0x01 := by decide
theorem test_decode_t2 :
    decodeByte ⟨.d2, .awaitType, 2, none⟩ 0b00000001 = .t2Led8 ∧ decodeByte ⟨.d2, .awaitType, 2, none⟩ 0x05 = .t2Reset 0x05 := by decide
theorem test_decode_acc :
    decodeByte ⟨.d1, .accumulating, 258, some .led1bit⟩ 0xAA = .accAppend 0xAA ∧
    decodeByte ⟨.d1, .accumulating, 259, some .led1bit⟩ 0xAA = .accBound 0xAA ∧
    decodeByte ⟨.d2, .accumulating, 2050, some .led8⟩ 0xBB = .accAppend 0xBB ∧
    decodeByte ⟨.d2, .accumulating, 2051, some .led8⟩ 0xBB = .accBound 0xBB := by decide

/-- The words of spec/opcode_table.json through the host's entry point. -/
theorem test_table_words :
    [(24, 11188997), (24, 11188998), (24, 11188995), (24, 11188993), (8, 170), (8, 187), (8, 5), (8, 6), (8, 3), (8, 1)].map
      (fun p => (decodeTableWord p.1 p.2).map Instr.mnemonic) =
    ["PING", "INFO", "LED1BIT", "LED8", "H0.ACCEPT", "H1.ACCEPT", "T1.PING", "T1.INFO", "T1.LED1", "T2.LED8"].map some := by decide +kernel

/-- A packet word laid where `step` fetches runs its command: the reply, and the frame of a payload of zeros (R141, R143, R144). -/
theorem test_fetch_ping : (nextOf (step (State.reset.withFetchWord 24 0xAABB05))).map State.tx = some ["PONG"] := by decide +kernel
theorem test_fetch_led1bit :
    (nextOf (step (State.reset.withFetchWord 24 0xAABB03))).map State.sink = some [.emit .blank] := by decide +kernel
theorem test_fetch_led8 :
    (nextOf (step (State.reset.withFetchWord 24 0xAABB01))).map (fun t => (t.sink, t.lastFrame)) = some ([.emit .blank], some 0) := by
  decide +kernel
theorem test_fetch_byte : (nextOf (step (State.reset.withFetchWord 8 0xAA))).map regs = some (.awaitHeader1, 1, none) := by decide +kernel

/-! ## The byte steps (vectors T-F1 to T-F20) -/

/-- T-F1 and T-F2. -/
theorem test_f1 : (nextOf (feed [0xBB, 0x05, 0x00] (base .d1))).map regs = some (.awaitHeader0, 0, none) := by decide
theorem test_f2 : (nextOf (byteStep 0xAA (base .d2))).map regs = some (.awaitHeader1, 1, none) := by decide
/-- T-F3 and T-F4. -/
theorem test_f3 : (nextOf (feed [0xAA, 0xBB] (base .d2))).map regs = some (.awaitType, 2, none) := by decide
theorem test_f4 : (nextOf (feed [0xAA, 0x01] (base .d1))).map regs = some (.awaitHeader0, 0, none) := by decide
/-- T-F6, the trap for a model that examines the mismatching byte again. -/
theorem test_f6 :
    (nextOf (feed [0xAA, 0xAA, 0xBB, 0x05] (base .d1))).map (fun t => (regs t, t.tx)) = some ((.awaitHeader0, 0, none), []) := by decide
/-- T-F7: one `PONG`, the second `05` is discarded. -/
theorem test_f7 :
    (nextOf (feed [0xAA, 0xBB, 0x05, 0x05] (base .d1))).map (fun t => (regs t, t.tx)) = some ((.awaitHeader0, 0, none), ["PONG"]) := by decide
/-- T-F8. -/
theorem test_f8 : (nextOf (feed [0xAA, 0xBB, 0x06] (base .d1))).map State.tx = some ["OK"] := by decide
/-- T-F10: dialect 2 has no PING. -/
theorem test_f10 :
    (nextOf (feed [0xAA, 0xBB, 0x05] (base .d2))).map (fun t => (regs t, t.tx)) = some ((.awaitHeader0, 0, none), []) := by decide
/-- The first bytes of T-F11 and T-F13 (R107, R109). -/
theorem test_f11_start : (nextOf (feed [0xAA, 0xBB, 0x03] (base .d1))).map regs = some (.accumulating, 3, some .led1bit) := by decide
theorem test_f13_start : (nextOf (feed [0xAA, 0xBB, 0x01] (base .d2))).map regs = some (.accumulating, 3, some .led8) := by decide
/-- T-F11: the 258th byte gives no output; T-F11b: the 259th renders and resets. -/
theorem test_f11 :
    (nextOf (byteStep 0x00 (accState .d1 254))).map (fun t => (regs t, t.sink)) = some ((.accumulating, 258, some .led1bit), []) := by
  decide +kernel
theorem test_f11b :
    (nextOf (byteStep 0x00 (accState .d1 255))).map (fun t => (regs t, t.sink)) = some ((.awaitHeader0, 0, none), [.emit .blank]) := by
  decide +kernel
/-- T-F14. -/
theorem test_f14 :
    (nextOf (byteStep 0x17 { base .d1 with pstate := .accumulating, count := 259, ptype := some .led1bit })).map (fun t => (regs t, t.sink)) =
      some ((.awaitHeader0, 0, none), []) := by decide
/-- T-F15. -/
theorem test_f15 :
    (nextOf (feed [0xAA, 0xBB, 0xAA, 0xBB, 0x05] (base .d1))).map (fun t => (regs t, t.tx)) = some ((.awaitHeader0, 0, none), []) := by decide
/-- A read of a payload byte that was never written faults (R38). -/
theorem test_unwritten_payload :
    exec (.accAppend 0) { base .d1 with pstate := .accumulating, count := 258, ptype := some .led1bit } = .fault .pktUnwritten := by rfl

/-! ## The packet commands and the mapper (E4 to E6, T-F12, T-B, T-GEO, T-GR, T-SP) -/

/-- E4 and P1: the bitmap byte 0 = `0x80` lights `R[15]` only. -/
theorem test_e4 :
    (nextOf (exec (.led1bit ((Vector.replicate 256 0).set 0 0x80)) (base .d1))).map State.sink = some [.emit ⟨litAt [], litAt [15]⟩] := by
  decide +kernel
/-- T-F12: the bitmap bytes `AA BB 05`. -/
theorem test_f12 :
    render1 ((((Vector.replicate 256 0).set 0 0xAA).set 1 0xBB).set 2 0x05) .blank =
      ⟨litAt [8, 10], litAt [0, 1, 3, 4, 5, 7, 9, 11, 13, 15]⟩ := by decide +kernel
/-- The pseudo-packet `LED1.PIXEL 20, 33` and T-GEO's byte 134 with mask `0x08` (R82). -/
theorem test_led1Pixel :
    (encode (led1Pixel 20 33))[3 + 134]? = some 0x08 ∧ ((encode (led1Pixel 20 33)).drop 3).count 0 = 255 := by decide +kernel
/-- E6, T-SP2 and T-SP4. -/
theorem test_e6 :
    (match (exec (.led8 ((Vector.replicate 2048 0).set 0 200 |>.set 1023 5 |>.set 1024 77 |>.set 2047 1)) (base .d2)) with
     | .next t => [t.fb.pixel .left 0, t.fb.pixel .left 1023, t.fb.pixel .right 0, t.fb.pixel .right 1023]
     | _ => []) = [some ⟨200, 200, 200⟩, some ⟨5, 5, 5⟩, some ⟨77, 77, 77⟩, some ⟨1, 1, 1⟩] := by decide +kernel
/-- T-B1 to T-B4. -/
theorem test_bits :
    bitmapBit ((Vector.replicate 256 0).set 0 0x80) 0 = true ∧ bitmapBit ((Vector.replicate 256 0).set 0 0x80) 1 = false ∧
    bitmapBit ((Vector.replicate 256 0).set 0 0x01) 7 = true ∧ bitmapBit ((Vector.replicate 256 0).set 255 0x01) 2047 = true ∧
    bitmapBit ((Vector.replicate 256 0).set 12 0x04) 101 = true := by decide +kernel
/-- Table T-GEO. -/
theorem test_geo :
    ∀ r ∈ ([(0, 0, .right, 15), (1, 0, .right, 14), (15, 0, .right, 0), (16, 0, .left, 15), (17, 0, .left, 14), (31, 0, .left, 0),
      (0, 1, .right, 16), (15, 1, .right, 31), (16, 1, .left, 16), (31, 1, .left, 31), (0, 2, .right, 47), (5, 3, .right, 53),
      (0, 15, .right, 240), (15, 15, .right, 255), (0, 16, .right, 271), (16, 16, .left, 271), (31, 16, .left, 256), (7, 17, .right, 279),
      (24, 40, .left, 647), (20, 33, .left, 532), (15, 48, .right, 768), (0, 63, .right, 1008), (16, 63, .left, 1008),
      (31, 63, .left, 1023)] : List (Nat × Nat × Strip × Nat)),
      lineOf r.1 = r.2.2.1 ∧ geom r.1 r.2.1 r.2.2.1 = some r.2.2.2 := by decide
/-- The inverse examples below the table. -/
theorem test_geo_inverse :
    pixelAt .right 0 = (15, 0) ∧ pixelAt .right 15 = (0, 0) ∧ pixelAt .right 16 = (0, 1) ∧ pixelAt .right 31 = (15, 1) ∧
    pixelAt .right 256 = (15, 16) ∧ pixelAt .left 0 = (31, 0) ∧ pixelAt .left 511 = (31, 31) ∧ pixelAt .left 1023 = (31, 63) := by decide
/-- T-GR1 to T-GR5. -/
theorem test_geo_rejects :
    geom 0 0 .left = none ∧ geom 16 0 .right = none ∧ geom 32 0 .right = none ∧ geom 0 64 .right = none := by decide
theorem test_set_pixel :
    FrameBuffer.blank.setPixel .left 1024 white = .blank ∧ (FrameBuffer.blank.setPixel .right 1023 white).pixel .right 1023 = some white := by
  decide +kernel

/-! ## The loop (T-G1 to T-G5, T-A1, T-A2, T-S1, T-S2, T-S4, T-S8) -/

/-- T-G2 at 4103 and T-G1 at 4102. -/
theorem test_g2 :
    (let t := guardStep { accState .d2 97 with rx := List.replicate 4103 0x11 }; (regs t, t.rx, t.phase)) =
      ((.awaitHeader0, 0, none), [], .drain) := by decide +kernel
theorem test_g1 :
    (let t := guardStep { base .d2 with rx := List.replicate 4102 0x11 }; (t.rx.length, t.phase)) = (4102, .drain) := by decide +kernel
/-- T-G4: no guard in dialect 1. -/
theorem test_g4 : (guardStep { accState .d1 97 with rx := List.replicate 5000 0 }).count = 100 := by decide +kernel
/-- T-G5: the guard before a byte. -/
theorem test_g5 :
    (nextOf (drainStep { base .d2 with
      cfg := { Config.default with dialect := .d2, guardPerByte := true }, phase := .drain, rx := List.replicate 5009 0x11 })).map
      (fun t => (t.rx, t.phase)) = some ([], .stale) := by decide +kernel
/-- `GUARD_PER_BYTE` in dialect 2, in the drain at 4102 bytes of 4103. -/
def nearlyFull : State :=
  { base .d2 with
    cfg := { Config.default with dialect := .d2, guardPerByte := true, rxCap := 4103 }
    phase := .drain
    rx := List.replicate 4102 0x11 }

/-- The guard check before a byte and its `pop` are two events (R6): the check lets the byte pass and pops nothing. -/
theorem test_check :
    (nextOf (drainStep nearlyFull)).map (fun t => (t.guardChecked, t.rx.length, t.phase)) = some (true, 4102, .drain) := by decide +kernel
/-- Two arrivals after that check: the first is queued, the second lost, and the `pop` leaves 4102 with nothing discarded (R201, R205). -/
theorem test_pop_after_check :
    (nextOf (drainStep (arrive 0x02 (arrive 0x01 nearlyFull.passGuard)))).map (fun t => (t.guardChecked, t.rx.length, t.rx.getLast?)) =
      some (false, 4102, some 0x01) := by decide +kernel
/-- T-A1 and T-A2. -/
theorem test_a1 : (arrive 4 { base .d1 with cfg := { Config.default with rxCap := 3 }, rx := [1, 2, 3] }).rx = [1, 2, 3] := by decide
theorem test_a2 : (arrive 4 { base .d1 with cfg := { Config.default with rxCap := 3 }, rx := [1, 2] }).rx = [1, 2, 4] := by decide
/-- T-S1 at 3000, T-S2 at 3001, T-S4 with no frame. -/
theorem test_s1 : (staleStep { base .d2 with lastFrame := some 1000, now := 3000 }).lastFrame = some 1000 := by decide
theorem test_s2 :
    (let t := staleStep { base .d2 with lastFrame := some 1000, now := 3001 }; (t.lastFrame, t.sink, t.phase)) = (none, [.clear], .yield) := by
  decide +kernel
theorem test_s4 : (staleStep { base .d2 with now := 1000000000 }).sink = [] := by decide
/-- T-S8: elapsed 1500, then 2001. -/
theorem test_s8 :
    elapsed { Config.default with timeBits := some 32 } (2 ^ 32 + 1000) (2 ^ 32 - 500) = 1500 ∧
    elapsed { Config.default with timeBits := some 32 } (2 ^ 32 + 1501) (2 ^ 32 - 500) = 2001 := by decide
/-- DRAIN_STOPS_AFTER_FRAME (R205): the byte that completes a frame ends the phase, with a byte still queued. -/
theorem test_drain_stops :
    (nextOf (drainStep { accState .d1 255 with
      cfg := { Config.default with drainStopsAfterFrame := true }, phase := .drain, rx := [0, 1] })).map (fun t => (t.rx, t.phase)) =
      some ([1], .stale) := by decide +kernel

/-! ## Witnesses: the hypotheses of every obligation are met together -/

theorem witness_PacketDecodeInvertsEncode :
    packetDialect .ping = some .d1 ∧ packetDialect .info = some .d1 ∧ packetDialect led1Full = some .d1 ∧
    packetDialect (led8Split 1 2) = some .d2 := by decide

theorem witness_PacketDecoderReadsOnlyEncodings : decodePacket .d1 [0xAA, 0xBB, 0x06, 0x17] = .ok (.info, [0x17]) := by rfl

/-- A row with a fallback, a row of one dialect, and the two rows with a condition, each at its boundary. -/
theorem witness_ByteDecodeInvertsEncode :
    ((Instr.t1Reset 0x04).wellFormed = true ∧ encode (.t1Reset 0x04) = [0x04] ∧
      ⟨"T1.RESET", some .d1, .awaitType, 0x00, 0x00, .always, true⟩ ∈ byteRows ∧ "T1.RESET" = (Instr.t1Reset 0x04).mnemonic) ∧
    (⟨"ACC.APPEND", none, .accumulating, 0x00, 0x00, .belowExp, false⟩ ∈ byteRows ∧
      RowCond.belowExp.holds ⟨.d1, .accumulating, 258, some .led1bit⟩ = true) ∧
    (⟨"ACC.BOUND", none, .accumulating, 0x00, 0x00, .atExp, false⟩ ∈ byteRows ∧
      RowCond.atExp.holds ⟨.d1, .accumulating, 259, some .led1bit⟩ = true) := by decide

theorem witness_IllegalTypeIsNoPacket :
    ((0x01 : Byte) ≠ tLed1 ∧ (0x01 : Byte) ≠ tPing ∧ (0x01 : Byte) ≠ tInfo) ∧ (0x03 : Byte) ≠ tLed8 := by decide

theorem witness_HeaderZeroAccepted : (base .d2).pstate = .awaitHeader0 := by rfl

theorem witness_NonHeaderDiscarded : (base .d1).pstate = .awaitHeader0 ∧ ∀ b ∈ ([0xBB, 0x05, 0x00] : List Byte), b ≠ 0xAA := by decide

theorem witness_HeaderOneAccepted : { base .d1 with pstate := PState.awaitHeader1, count := 1 }.pstate = .awaitHeader1 := by rfl

theorem witness_HeaderOneMismatchResets :
    { base .d1 with pstate := PState.awaitHeader1, count := 1 }.pstate = .awaitHeader1 ∧ (0xAA : Byte) ≠ 0xBB := by decide

theorem witness_QueryTypeRepliesAndResets :
    (base .d1).cfg.dialect = .d1 ∧ { base .d1 with pstate := PState.awaitType, count := 2 }.pstate = .awaitType := by decide

theorem witness_Led1TypeBeginsAccumulating :
    (base .d1).cfg.dialect = .d1 ∧ { base .d1 with pstate := PState.awaitType, count := 2 }.pstate = .awaitType := by decide

theorem witness_IllegalTypeResets :
    ({ base .d1 with pstate := PState.awaitType, count := 2 }.pstate = .awaitType ∧ (base .d1).cfg.dialect = .d1 ∧
      (0x01 : Byte) ≠ 0x03 ∧ (0x01 : Byte) ≠ 0x05 ∧ (0x01 : Byte) ≠ 0x06) ∧
    ({ base .d2 with pstate := PState.awaitType, count := 2 }.pstate = .awaitType ∧ (base .d2).cfg.dialect = .d2 ∧
      (0x05 : Byte) ≠ 0x01) := by decide

theorem witness_Led8TypeBeginsAccumulating :
    (base .d2).cfg.dialect = .d2 ∧ { base .d2 with pstate := PState.awaitType, count := 2 }.pstate = .awaitType := by decide

theorem witness_OtherDialectResetsSilently :
    ((base .d2).cfg.dialect = .d2 ∧ packetDialect led1Blank = some .d1) ∧ ((base .d1).cfg.dialect = .d1 ∧ packetDialect (led8Fill 1) = some .d2) := by
  decide

/-- The invariant holds at every point inside an LED packet of either dialect. -/
theorem accState_inv (d : Dialect) (n : Nat) (h : 3 + n < maxPkt d) : (accState d n).Inv := by
  have hw : Config.wf { Config.default with dialect := d } = true := by cases d <;> decide
  have hc : (accState d n).count = 3 + n := rfl
  refine ⟨hw, ?_, ⟨?_, ?_, ?_⟩, blank_wf, Nat.zero_le _, fun _ => rfl, trivial⟩
  · show 3 ≤ 3 + n ∧ 3 + n < expTotal (some (ledType d)) ∧ some (ledType d) = some (ledType d)
    exact ⟨by omega, by cases d <;> exact h, rfl⟩
  · show Memory.cellsFrom 0 _ = Memory.cellsFrom 0 ((Memory.cellsFrom 0 _).map Prod.snd)
    rw [cellsFrom_bytes]
  · show (Memory.cellsFrom 0 _).length = 3 + n
    rw [cellsFrom_length]; simp; omega
  · show ((Memory.cellsFrom 0 _).map Prod.snd).take 3 = [hdr0, hdr1, ledTypeByte d].take (3 + n)
    rw [cellsFrom_bytes, show 3 + n = n + 3 by omega]; simp [List.take_succ_cons]

/-- Inside the packet, and at its last byte, in both dialects. -/
theorem witness_PayloadByteAppendsOrCompletes :
    ((accState .d1 254).Inv ∧ (accState .d1 254).pstate = .accumulating ∧
      (accState .d1 254).count + 1 < expTotal (accState .d1 254).ptype) ∧
    ((accState .d1 255).Inv ∧ (accState .d1 255).count + 1 = expTotal (accState .d1 255).ptype ∧ (accState .d1 255).ptype = some .led1bit) ∧
    ((accState .d2 2047).Inv ∧ (accState .d2 2047).count + 1 = expTotal (accState .d2 2047).ptype ∧
      (accState .d2 2047).ptype = some .led8) :=
  ⟨⟨accState_inv _ _ (by decide), rfl, by decide⟩, ⟨accState_inv _ _ (by decide), rfl, rfl⟩, accState_inv _ _ (by decide), rfl, rfl⟩

theorem witness_DefensiveBoundAborts :
    (let s := { base .d1 with pstate := PState.accumulating, count := 259, ptype := some PType.led1bit }
     s.pstate = .accumulating ∧ expTotal s.ptype ≤ s.count) := by decide

theorem witness_AppendBeyondBufferResets :
    maxPkt (base .d1).cfg.dialect ≤ { base .d1 with count := 259, ptype := some PType.led8 }.count := by decide

theorem witness_PingSendsPong : (base .d1).cfg.dialect = .d1 := by rfl
theorem witness_InfoSendsInfoLines : (base .d1).cfg.dialect = .d1 ∧ (base .d1).cfg.wf = true := by decide
theorem witness_Led1BitRendersAndEmits : (base .d1).cfg.dialect = .d1 := by rfl
theorem witness_Led8RendersEmitsAndRecords : (base .d2).cfg.dialect = .d2 := by rfl

theorem witness_WholePacketHasItsCommandsEffect :
    (packetDialect led1Full = some (base .d1).cfg.dialect ∧ (base .d1).pstate = .awaitHeader0 ∧ (base .d1).count = 0 ∧ (base .d1).ptype = none ∧
      (base .d1).pkt.wf = true) ∧
    packetDialect (led8Fill 7) = some (base .d2).cfg.dialect := by decide

/-- The last byte of PING after its two header bytes: `TX` changes. -/
theorem witness_OutputsOnlyAtTheEndOfAPacket :
    ∃ t u, (base .d1).framerIdle ∧ feed [0xAA, 0xBB] (base .d1) = .next t ∧ byteStep 0x05 t = .next u ∧ u.tx ≠ t.tx :=
  ⟨_, _, ⟨rfl, rfl, rfl, rfl⟩, rfl, rfl, by decide⟩

theorem witness_FillerResynchronises :
    (accState .d1 0).Inv ∧ (∀ b ∈ List.replicate 259 (0 : Byte), b ≠ hdr0) ∧
    maxPkt (accState .d1 0).cfg.dialect ≤ (List.replicate 259 (0 : Byte)).length :=
  ⟨accState_inv _ _ (by decide), fun b hb => by rw [List.eq_of_mem_replicate hb]; decide, by rw [List.length_replicate]; exact le_refl _⟩

theorem witness_SetPixelWritesInBoundsOnly : FrameBuffer.blank.wf = true ∧ 1023 < 1024 ∧ (Strip.left ≠ .right) ∧ 1024 ≤ 1024 :=
  ⟨blank_wf, by decide⟩

theorem witness_ControllerViewIsLeftThenRight :
    FrameBuffer.blank.wf = true ∧ 1023 < 1024 ∧ (1024 ≤ 1024 ∧ 1024 < 2048) ∧ (1024 ≤ 2047 ∧ 2047 < 2048) ∧ 2048 ≤ 2048 :=
  ⟨blank_wf, by decide⟩

/-- The bounds of the mapper's statements: index 1023 of a strip, logical pixel 2047, the two columns at the middle of the matrix, the last row; and
the positions that are rejected. -/
theorem witness_ClearStripsBlackens : 1023 < 1024 := by decide
theorem witness_BitmapBitIsMsbFirst : 2047 < 2048 := by decide
theorem witness_GeomClosedForm : (15 < 32 ∧ 0 < 64) ∧ (16 < 32 ∧ 63 < 64) := by decide
theorem witness_GeomRejectsTheWrongLine :
    (32 ≤ 32 ∨ 64 ≤ 0) ∧ (32 ≤ 0 ∨ 64 ≤ 64) ∧ (31 < 32 ∧ 63 < 64 ∧ Strip.right ≠ lineOf 31) ∧ geom 31 63 .left = some 1023 := by decide
theorem witness_LineMapIsBijective :
    (2047 < 2048 ∧ Strip.right ≠ lineOf (2047 % 32)) ∧ 1023 < 1024 ∧ lineOf (2047 % 32) = .left ∧
    geom (2047 % 32) (2047 / 32) .left = some 1023 := by decide
theorem witness_InverseMapInvertsGeom : 1023 < 1024 ∧ geom 31 63 .left = some 1023 := by decide
theorem witness_Render1ShowsTheBitmap : 1023 < 1024 := by decide
theorem witness_Render8SplitsTheIntensities : 1023 < 1024 := by decide

theorem witness_ArrivalQueuesOrIsLost :
    (let s := { base .d1 with cfg := { Config.default with rxCap := 3 }, rx := [1, 2] }; s.rx.length < s.cfg.rxCap) ∧
    (let s := { base .d1 with cfg := { Config.default with rxCap := 3 }, rx := [1, 2, 3] }; s.cfg.rxCap ≤ s.rx.length) := by decide

/-- Every state has a next move, the loop's or the peer's, also where none is listed: one of the statements about a step applies. -/
theorem every_state_has_a_move (s : State) : (∃ dt more, s.coming = (.loop dt, more)) ∨ ∃ dt b more, s.coming = (.arrive dt b, more) := by
  rcases s.coming with ⟨m, more⟩
  cases m
  · exact .inl ⟨_, _, rfl⟩
  · exact .inr ⟨_, _, _, rfl⟩

theorem witness_PeerStepIsAnArrival :
    (base .d1).cfg.wf = true ∧ { base .d1 with sched := [Move.arrive 5 0xAA] }.coming = (.arrive 5 0xAA, []) := by decide

/-- A byte in the drain that runs; one that faults, where a payload byte was never written; and one whose guard check has been made. -/
theorem witness_DrainStepRunsTheDecodedInstruction :
    (let s := { base .d1 with sched := [Move.loop 0], phase := Phase.drain, rx := [0xAA] }
     s.cfg.wf = true ∧ s.coming = (.loop 0, []) ∧ s.phase = .drain ∧ s.rx = 0xAA :: [] ∧
       ∃ t, exec (decodeByte ⟨s.cfg.dialect, s.pstate, s.count, s.ptype⟩ 0xAA) { s with now := s.now + 0, sched := [], rx := [] } = .next t) ∧
    (let s := { base .d1 with
       pstate := PState.accumulating, count := 258, ptype := some PType.led1bit, sched := [Move.loop 0], phase := Phase.drain, rx := [0] }
     s.cfg.wf = true ∧ s.coming = (.loop 0, []) ∧ s.phase = .drain ∧ s.rx = 0 :: [] ∧
       exec (decodeByte ⟨s.cfg.dialect, s.pstate, s.count, s.ptype⟩ 0) { s with now := s.now + 0, sched := [], rx := [] } = .fault .pktUnwritten) ∧
    (let s := { base .d2 with
       cfg := { Config.default with dialect := .d2, guardPerByte := true }, phase := Phase.drain, guardChecked := true, rx := [0xAA] }
     s.cfg.wf = true ∧ s.phase = .drain ∧ s.rx = 0xAA :: [] ∧ s.cfg.guardPerByte = true ∧ s.cfg.dialect = .d2 ∧ s.guardChecked = true) :=
  ⟨⟨by decide, rfl, rfl, rfl, _, rfl⟩, ⟨by decide, rfl, rfl, rfl, rfl⟩, by decide⟩

theorem witness_LoopStepsArePhaseSteps :
    (let s := { base .d2 with sched := [Move.loop 7] }; s.cfg.wf = true ∧ s.coming = (.loop 7, []) ∧ s.phase = .guard ∧ s.rx = []) ∧
    { base .d2 with sched := [Move.loop 7], phase := Phase.drain }.phase = .drain ∧
    (let s := { base .d2 with cfg := { Config.default with dialect := .d2, guardPerByte := true }, phase := Phase.drain, rx := [0xAA] }
     s.cfg.wf = true ∧ s.phase = .drain ∧ s.rx ≠ [] ∧ s.cfg.guardPerByte = true ∧ s.cfg.dialect = .d2 ∧ s.guardChecked = false) ∧
    { base .d2 with sched := [Move.loop 7], phase := Phase.stale }.phase = .stale ∧
    { base .d2 with sched := [Move.loop 7], phase := Phase.yield }.phase = .yield := by decide

theorem witness_OverflowGuardDiscardsAll :
    ((base .d2).cfg.dialect = .d2 ∧ 4102 < (List.replicate 4103 (0x11 : Byte)).length) ∧
    ((base .d1).cfg.dialect = .d1 ∨ 4103 ≤ 4102) ∧ (List.replicate 4102 (0x11 : Byte)).length ≤ 4102 := by
  simp only [List.length_replicate]; decide

theorem witness_Dialect1HasNoGuard :
    (base .d1).cfg.dialect = .d1 ∧
    ∃ t, { base .d1 with rx := 0xAA :: List.replicate 5000 0 }.rx = 0xAA :: List.replicate 5000 0 ∧
      byteStep 0xAA { base .d1 with rx := List.replicate 5000 0, guardChecked := false } = .next t :=
  ⟨rfl, _, rfl, rfl⟩

/-- Checks due at 4103 and at 4102 pending bytes, and a byte stepped with 4103 pending: in a build without the check, and after a check. -/
theorem witness_GuardBeforeEachByteIfBuilt :
    (let s := { base .d2 with cfg := { Config.default with dialect := .d2, guardPerByte := true }, rx := List.replicate 4103 0x11 }
     s.cfg.dialect = .d2 ∧ s.cfg.guardPerByte = true ∧ s.guardChecked = false ∧ 4102 < s.rx.length) ∧
    (let s := { base .d2 with cfg := { Config.default with dialect := .d2, guardPerByte := true }, rx := List.replicate 4102 0x11 }
     s.cfg.guardPerByte = true ∧ s.guardChecked = false ∧ s.rx ≠ [] ∧ s.rx.length ≤ 4102) ∧
    (∃ t, (base .d2).cfg.guardPerByte = false ∧ { base .d2 with rx := 0xAA :: List.replicate 4102 0x11 }.rx = 0xAA :: List.replicate 4102 0x11 ∧
      byteStep 0xAA { base .d2 with rx := List.replicate 4102 0x11, guardChecked := false } = .next t) ∧
    { base .d2 with guardChecked := true }.guardChecked = true :=
  ⟨⟨rfl, rfl, rfl, by simp only [List.length_replicate]; decide⟩,
    ⟨rfl, rfl, List.cons_ne_nil _ _, by simp only [List.length_replicate]; decide⟩, ⟨_, rfl, rfl, rfl⟩, rfl⟩

/-- At 2001 ms, at 2000 ms, and with no frame recorded. -/
theorem witness_StaleCheckClearsOnce :
    (let s := { base .d2 with lastFrame := some 1000, now := 3001 }; s.lastFrame = some 1000 ∧ 2000 < elapsed s.cfg s.now 1000) ∧
    (let s := { base .d2 with lastFrame := some 1000, now := 3000 }; s.lastFrame = some 1000 ∧ elapsed s.cfg s.now 1000 ≤ 2000) ∧
    (base .d2).lastFrame = none := by decide

theorem witness_StalePhaseByDialect : (base .d2).cfg.dialect = .d2 ∧ (base .d1).cfg.dialect = .d1 := by decide

theorem witness_ElapsedTimeWraps :
    Config.default.timeBits = none ∧ { Config.default with timeBits := some 32 }.timeBits = some 32 := by decide

/-- A step in each phase and of each agent. -/
theorem witness_PhasesComeInOrder :
    (∃ t, step { base .d1 with sched := [Move.arrive 0 0xAA] } = .next t) ∧
    (∃ t, step { base .d1 with phase := Phase.guard } = .next t) ∧ (∃ t, step { base .d1 with phase := Phase.drain } = .next t) ∧
    (∃ t, step { base .d1 with phase := Phase.stale } = .next t) ∧ (∃ t, step { base .d1 with phase := Phase.yield } = .next t) ∧
    { base .d1 with sched := [Move.arrive 0 0xAA] }.nextMove = .arrive 0 0xAA ∧ (base .d1).nextMove = .loop 0 :=
  ⟨⟨_, rfl⟩, ⟨_, rfl⟩, ⟨_, rfl⟩, ⟨_, rfl⟩, ⟨_, rfl⟩, rfl, rfl⟩

/-- A packet parked in `ACCUMULATING`, in the staleness phase of dialect 2 with a frame 3 s old. -/
theorem witness_ParkedPacketWaits :
    ∃ t, { accState .d2 97 with phase := Phase.stale, lastFrame := some 0, now := 3000 }.rx = [] ∧
      step { accState .d2 97 with phase := Phase.stale, lastFrame := some 0, now := 3000 } = .next t :=
  ⟨_, rfl, rfl⟩

theorem witness_ConfigurationFixedTimeForward : ∃ t, step (base .d2) = .next t := ⟨_, rfl⟩
theorem witness_ChannelsAreAppendOnly : ∃ t, step (State.reset.withFetchWord 8 0x05) = .next t := ⟨_, rfl⟩

theorem witness_InvariantsHoldAtReset : Config.default.wf = true := by decide

theorem witness_CountStaysBelowThePacketLength :
    (accState .d2 2047).Inv ∧ (accState .d2 2047).pstate = .accumulating := ⟨accState_inv _ _ (by decide), rfl⟩

theorem witness_StepKeepsTheInvariant :
    ∃ t, step (accState .d2 97) = .next t ∧ (accState .d2 97).Inv ∧ (accState .d2 97).checkFits :=
  ⟨_, rfl, accState_inv _ _ (by decide), fun h => by cases h⟩

/-- The second invariant with a check that waits for its `pop`. -/
theorem witness_StepKeepsTheInvariant_checked :
    ∃ t, { base .d2 with
        cfg := { Config.default with dialect := .d2, guardPerByte := true }, phase := Phase.drain, guardChecked := true, rx := [0xAA] }.checkFits ∧
      step { base .d2 with
        cfg := { Config.default with dialect := .d2, guardPerByte := true }, phase := Phase.drain, guardChecked := true, rx := [0xAA] } =
        .next t :=
  ⟨_, fun _ => ⟨rfl, List.cons_ne_nil _ _, rfl, rfl⟩, rfl⟩

theorem witness_EveryStepAnswersANextState : (accState .d1 255).Inv := accState_inv _ _ (by decide)

/-- `RX_CAP` = 0 (I3), INFO lines not ending in OK (I6) and `CNT_BITS` = 11 (I11) are refused; `CNT_BITS` = 12 and `RX_CAP` = 1 are not. -/
theorem witness_RefusedExactlyForABadConfiguration :
    step { base .d1 with cfg := { Config.default with rxCap := 0 } } = .refused .badConfig ∧
    step { base .d1 with cfg := { Config.default with infoLines := ["OK", "v"] } } = .refused .badConfig ∧
    step { base .d1 with cfg := { Config.default with cntBits := 11 } } = .refused .badConfig ∧
    ∃ t, step { base .d1 with cfg := { Config.default with cntBits := 12, rxCap := 1 } } = .next t := ⟨rfl, rfl, rfl, _, rfl⟩

/-- R209: two states that differ only in time, coming inputs and the model's counter have the same observation. -/
theorem test_observation :
    State.observation { base .d1 with now := 5, sched := [], freeIx := 3 } = State.observation (base .d1) := by rfl

/-- One frame, a recorded time, and the step that clears. -/
def staleState : State :=
  { base .d2 with sink := [.emit .blank], lastFrame := some 0, now := 2001, phase := .stale, sched := [.loop 0] }

theorem witness_StepKeepsOnlyRepliesOnTx : ∃ t, { base .d1 with tx := ["PONG"] }.txFits ∧ step { base .d1 with tx := ["PONG"] } = .next t :=
  ⟨_, ⟨["PONG"], rfl, by decide⟩, rfl⟩

theorem witness_StepKeepsOneClearPerFrame :
    ∃ t, staleState.clearsFit ∧ step staleState = .next t ∧ t.sink = staleState.sink ++ [.clear] :=
  ⟨_, ⟨rfl, fun _ => rfl, fun h => by cases h⟩, rfl, rfl⟩

theorem witness_StepKeepsPixelKinds : ∃ t, (accState .d2 97).pixelsFit ∧ step (accState .d2 97) = .next t :=
  ⟨_, ⟨⟨fun _ h => ⟨0, List.eq_of_mem_replicate h⟩, fun _ h => ⟨0, List.eq_of_mem_replicate h⟩⟩, fun _ h => by cases h⟩, rfl⟩

end Sys2Proof.Tests
end

section
/-! The loop's steps by phase (43_control_loop.md R202): what one step of `LOOP` answers in each phase, and from it the events of the loop other
than a byte step. -/

namespace Sys2Proof.Machine

/-! ### One equation of `loopStep` per phase -/

theorem loopStep_guard {s : State} (h : s.phase = .guard) : loopStep s = .next (guardStep s) := by simp [loopStep, h]

theorem loopStep_drain {s : State} (h : s.phase = .drain) : loopStep s = drainStep s := by simp [loopStep, h]

theorem loopStep_stale {s : State} (h : s.phase = .stale) : loopStep s = .next (staleStep s) := by simp [loopStep, h]

theorem loopStep_yield {s : State} (h : s.phase = .yield) : loopStep s = .next (yieldStep s) := by simp [loopStep, h]

/-- The drain of an empty FIFO ends (R205). -/
theorem drainStep_nil {s : State} (h : s.rx = []) : drainStep s = .next (s.setPhase .stale) := by simp [drainStep, h]

/-- Settles O41: a step of the loop is `loopStep` after the input is taken, which changes neither the phase nor the FIFO nor the pending guard
check, so each clause is the equation of its phase. -/
theorem loopStepsArePhaseSteps : Obligations.LoopStepsArePhaseSteps := by
  unfold Obligations.LoopStepsArePhaseSteps
  intro s u dt more hwf hcoming hu
  obtain rfl : u = s.takeInput := hu.trans (takeInput_of_coming hcoming).symm
  rw [step_loop hwf hcoming]
  refine ⟨fun hguard => ?_, fun hdrain hrx hbuilt hd2 hunchecked => ?_, fun hdrain hrx => ?_, fun hstale => ?_, fun hyield => ?_⟩
  · exact loopStep_guard hguard
  · have hdue : s.takeInput.checkDue = true := checkDue_iff.2 ⟨hbuilt, hd2, hunchecked⟩
    exact (loopStep_drain (s := s.takeInput) hdrain).trans (drainStep_check hdue hrx)
  · exact (loopStep_drain (s := s.takeInput) hdrain).trans (drainStep_nil hrx)
  · exact loopStep_stale hstale
  · exact loopStep_yield hyield

end Sys2Proof.Machine
end

section
/-! The invariant of every run (10_state.md R20 to R31) part by part: the framer registers with the packet buffer, the recorded frame time, the loop's
place before a byte. From the parts: what every step keeps (O54), and the bounds on the count that the invariant gives (O55). -/

namespace Sys2Proof.Machine

/-! ### `countFits`, one equation per framer state (R23) -/

theorem countFits_awaitHeader0 {s : State} (h : s.pstate = .awaitHeader0) : s.countFits ↔ s.count = 0 ∧ s.ptype = none := by
  simp [State.countFits, h]

theorem countFits_awaitHeader1 {s : State} (h : s.pstate = .awaitHeader1) : s.countFits ↔ s.count = 1 ∧ s.ptype = none := by
  simp [State.countFits, h]

theorem countFits_awaitType {s : State} (h : s.pstate = .awaitType) : s.countFits ↔ s.count = 2 ∧ s.ptype = none := by
  simp [State.countFits, h]

theorem countFits_accumulating {s : State} (h : s.pstate = .accumulating) :
    s.countFits ↔ 3 ≤ s.count ∧ s.count < expTotal s.ptype ∧ s.ptype = some (ledType s.cfg.dialect) := by
  simp [State.countFits, h]

theorem parserReset_countFits (c : Cause) (s : State) : (parserReset c s).countFits := ⟨rfl, rfl⟩

theorem parserReset_pktFits (c : Cause) (s : State) : (parserReset c s).pktFits := ⟨rfl, rfl, rfl⟩

/-- The next byte of a packet lengthens the buffer's run of bytes: any byte after the first three, the header's or the type's own byte among them
(R24). -/
theorem pktFits_accept {s : State} {i : Nat} {b : Byte} (h : s.pktFits) (hi : s.count = i)
    (hb : i < 3 → [hdr0, hdr1, ledTypeByte s.cfg.dialect][i]? = some b) : (s.accept i b).pktFits := by
  obtain ⟨bs, hpkt, hlen, hhead⟩ := (pktFits_iff s).1 h
  refine (pktFits_iff _).2 ⟨bs ++ [b], ?_, ?_, ?_⟩
  · have hwrite := write_cellsFrom 0 bs b
    rwa [Nat.zero_add, ← hpkt, hlen, hi] at hwrite
  · simp [hlen, hi]
  · show (bs ++ [b]).take 3 = [hdr0, hdr1, ledTypeByte s.cfg.dialect].take (i + 1)
    by_cases h3 : i < 3
    · have hbs : bs = [hdr0, hdr1, ledTypeByte s.cfg.dialect].take i := by
        rw [← hi, ← hhead, List.take_of_length_le (by omega)]
      rw [List.take_of_length_le (by rw [List.length_append, List.length_singleton]; omega), List.take_add_one, ← hbs, hb h3]
      rfl
    · rw [List.take_append_of_le_length (by omega), hhead, List.take_of_length_le (by simp; omega),
        List.take_of_length_le (by simp; omega)]

/-! ### The recorded frame time (R30, R37, R237) -/

/-- A time that is kept still fits when time has passed. -/
theorem lastFrameFits_later {s t : State} (h : s.lastFrameFits) (hcfg : t.cfg = s.cfg) (hlast : t.lastFrame = s.lastFrame)
    (hnow : s.now ≤ t.now) : t.lastFrameFits := by
  unfold State.lastFrameFits at h ⊢
  rw [hlast, hcfg]
  cases hl : s.lastFrame with
  | none => trivial
  | some x =>
    cases hbits : s.cfg.timeBits with
    | none => simp only [hl, hbits] at h ⊢; omega
    | some n => simpa only [hl, hbits] using h

/-- The present time, as it is stored, fits. -/
theorem lastFrameFits_stamp {s : State} (h : s.lastFrame = some (stamp s.cfg s.now)) : s.lastFrameFits := by
  unfold State.lastFrameFits stamp at *
  rw [h]
  cases hbits : s.cfg.timeBits with
  | none => exact le_refl _
  | some n => exact Nat.mod_lt _ (by positivity)

/-! ### What each part of a step does to the invariant -/

theorem takeInput_inv {s : State} (h : s.Inv) : s.takeInput.Inv :=
  { h with lastFrame := lastFrameFits_later h.lastFrame rfl rfl (Nat.le_add_right _ _) }

theorem arrive_inv (b : Byte) {s : State} (h : s.Inv) : (arrive b s).Inv := by
  unfold arrive
  split
  · rename_i hroom
    exact { h with rx := by simpa using hroom }
  · exact h

theorem pop_inv {b : Byte} {rest : List Byte} {s : State} (hrx : s.rx = b :: rest) (h : s.Inv) : (s.pop rest).Inv := by
  have hlen := h.rx
  rw [hrx, List.length_cons] at hlen
  exact { h with rx := Nat.le_of_succ_le hlen }

theorem parserReset_inv (c : Cause) {s : State} (h : s.Inv) : (parserReset c s).Inv :=
  { h with count := parserReset_countFits c s, pkt := parserReset_pktFits c s }

theorem discardPending_inv {s : State} (h : s.Inv) : (discardPending s).Inv :=
  { parserReset_inv .srGuard h with rx := Nat.zero_le _ }

theorem staleCheck_inv {s : State} (h : s.Inv) : (staleCheck s).Inv := by
  unfold staleCheck
  split
  · exact { h with fb := blank_wf, noTimer := fun _ => rfl, lastFrame := trivial }
  · exact h

/-- A query sends its reply and is over: the byte it stores is gone with the reset (R106). -/
theorem query_inv {b : Byte} {run : State → State} {s : State} (h : s.Inv)
    (hrun : ∃ l, run (s.accept 2 b) = { s.accept 2 b with tx := l }) : (query b run s).Inv := by
  obtain ⟨l, hrun⟩ := hrun
  unfold query
  rw [hrun]
  exact { h with count := parserReset_countFits _ _, pkt := parserReset_pktFits _ _ }

/-- The type byte of the dialect's LED packet begins a packet that still lacks its payload (R107, R109). -/
theorem beginPacket_inv {d : Dialect} {s : State} (h : s.Inv) (hp : s.pstate = .awaitType) (hd : s.cfg.dialect = d) :
    (beginPacket (ledTypeByte d) (ledType d) s).Inv := by
  subst hd
  obtain ⟨hcount, -⟩ := (countFits_awaitType hp).1 h.count
  have hroom : 3 < expTotal (some (ledType s.cfg.dialect)) := by cases s.cfg.dialect <;> decide
  exact { h with
    count := ⟨le_refl 3, hroom, rfl⟩
    pkt := pktFits_accept h.pkt hcount fun _ => rfl }

/-- The byte that completes a packet renders it and resets the framer, whatever the buffer held (R111): an LED-1BIT packet records no time, an LED
packet only in dialect 2. -/
theorem dispatchPacket_inv {b : Byte} {s t : State} (h : s.Inv) (hlast : s.count + 1 = expTotal s.ptype)
    (hroom : s.count < maxPkt s.cfg.dialect) (hstep : dispatchPacket (s.accept s.count b) = .next t) : t.Inv := by
  rcases dispatchPacket_cases (s.accept s.count b) with ⟨bm, -, -, hd⟩ | ⟨g, htype, -, hd⟩ | hd <;> rw [hd] at hstep <;> cases hstep
  · exact { h with count := parserReset_countFits _ _, pkt := parserReset_pktFits _ _, fb := render1_wf _ _ }
  · have hd2 : s.cfg.dialect = .d2 := dialect_of_completion hlast hroom htype
    exact { h with
      count := parserReset_countFits _ _
      pkt := parserReset_pktFits _ _
      fb := render8_wf _ _
      noTimer := fun hd1 => absurd (hd2.symm.trans hd1) (by decide)
      lastFrame := lastFrameFits_stamp rfl }

/-- Every byte step keeps the invariant of every run, row by row (R100 to R112). -/
theorem byteStep_inv {b : Byte} {s t : State} (hstep : byteStep b s = .next t) (h : s.Inv) : t.Inv := by
  rcases byteStep_cases b s with ⟨hp, rfl, hs⟩ | ⟨-, -, hs⟩ | ⟨hp, rfl, hs⟩ | ⟨-, -, hs⟩ | ⟨-, -, rfl, hs⟩ | ⟨-, -, rfl, hs⟩ |
    ⟨hp, hd, rfl, hs⟩ | ⟨-, -, -, -, -, hs⟩ | ⟨hp, hd, rfl, hs⟩ | ⟨-, -, -, hs⟩ | ⟨-, -, hs⟩ | ⟨hp, hmore, -, hs⟩ |
    ⟨-, hlast, hroom, hs⟩ <;> rw [hs] at hstep
  · cases hstep
    obtain ⟨hcount, htype⟩ := (countFits_awaitHeader0 hp).1 h.count
    exact { h with count := ⟨rfl, htype⟩, pkt := pktFits_accept h.pkt hcount fun _ => rfl }
  · cases hstep
    exact h
  · cases hstep
    obtain ⟨hcount, htype⟩ := (countFits_awaitHeader1 hp).1 h.count
    exact { h with count := ⟨rfl, htype⟩, pkt := pktFits_accept h.pkt hcount fun _ => rfl }
  · cases hstep
    exact parserReset_inv _ h
  · cases hstep
    exact query_inv h ⟨_, rfl⟩
  · cases hstep
    exact query_inv h ⟨_, doInfo_eq _⟩
  · cases hstep
    exact beginPacket_inv h hp hd
  · cases hstep
    exact parserReset_inv _ h
  · cases hstep
    exact beginPacket_inv h hp hd
  · cases hstep
    exact parserReset_inv _ h
  · cases hstep
    exact parserReset_inv _ h
  · cases hstep
    obtain ⟨hmin, -, htype⟩ := (countFits_accumulating hp).1 h.count
    exact { h with
      count := (countFits_accumulating (s := s.accept s.count b) hp).2 ⟨Nat.le_succ_of_le hmin, hmore, htype⟩
      pkt := pktFits_accept h.pkt rfl fun hlt => absurd hmin (by omega) }
  · exact dispatchPacket_inv h hlast hroom hstep

theorem step_inv {s t : State} (h : step s = .next t) (hs : s.Inv) : t.Inv :=
  step_keeps State.Inv
    (input := fun _ h => takeInput_inv h)
    (arrival := fun b _ h => arrive_inv b h)
    (phases := fun _ _ h => { h with })
    (pop := fun _ _ _ hrx h => pop_inv hrx h)
    (checked := fun _ h => { h with })
    (discard := fun _ h => discardPending_inv h)
    (bytes := fun _ _ _ hstep h => byteStep_inv hstep h)
    (stale := fun _ _ h => staleCheck_inv h) h hs

/-! ### The guard check before a byte (R204, R205) -/

/-- Where no check has been made there is nothing to wait for. -/
theorem checkFits_of_unchecked {s : State} (h : s.guardChecked = false) : s.checkFits := fun hc => by simp [h] at hc

theorem unchecked_of_not_drain {s : State} (h : s.checkFits) (hp : s.phase ≠ .drain) : s.guardChecked = false := by
  by_contra hc
  exact hp (h (by simpa using hc)).1

theorem unchecked_of_rx_nil {s : State} (h : s.checkFits) (hrx : s.rx = []) : s.guardChecked = false := by
  by_contra hc
  exact (h (by simpa using hc)).2.1 hrx

@[simp] theorem guardStep_guardChecked (s : State) : (guardStep s).guardChecked = s.guardChecked := by
  unfold guardStep
  split <;> rfl

@[simp] theorem staleCheck_guardChecked (s : State) : (staleCheck s).guardChecked = s.guardChecked := by
  unfold staleCheck
  split <;> rfl

@[simp] theorem staleStep_guardChecked (s : State) : (staleStep s).guardChecked = s.guardChecked := by
  unfold staleStep
  split <;> simp

@[simp] theorem afterByte_guardChecked (s u : State) : (afterByte s u).guardChecked = u.guardChecked := by
  unfold afterByte
  split <;> rfl

theorem arrive_checkFits (b : Byte) {s : State} (h : s.checkFits) : (arrive b s).checkFits := by
  unfold arrive
  split
  · intro hc
    obtain ⟨hp, -, hbuilt⟩ := h hc
    exact ⟨hp, List.append_ne_nil_of_right_ne_nil _ (List.cons_ne_nil _ _), hbuilt⟩
  · exact h

/-- A due check discards all, or then waits for the `pop` of the byte that made it due. -/
theorem byteGuard_checkFits {s : State} (hp : s.phase = .drain) (hrx : s.rx ≠ []) (hdue : s.checkDue = true) :
    (byteGuard s).checkFits := by
  obtain ⟨hbuilt, hd2, hunchecked⟩ := checkDue_iff.1 hdue
  rcases byteGuard_cases s with ⟨-, he⟩ | ⟨-, he⟩ <;> rw [he]
  · exact checkFits_of_unchecked hunchecked
  · exact fun _ => ⟨hp, hrx, hbuilt, hd2⟩

theorem loopStep_checkFits {s t : State} (h : loopStep s = .next t) (hs : s.checkFits) : t.checkFits := by
  obtain ⟨hp, rfl⟩ | ⟨-, hrx, rfl⟩ | ⟨hp, hrx, hdue, rfl⟩ | ⟨b, rest, u, -, -, -, hu, rfl⟩ | ⟨hp, rfl⟩ | ⟨hp, rfl⟩ := loopStep_cases h
  · have hunchecked := unchecked_of_not_drain hs (by simp [hp])
    exact checkFits_of_unchecked (by simpa using hunchecked)
  · have hunchecked := unchecked_of_rx_nil hs hrx
    exact checkFits_of_unchecked hunchecked
  · exact byteGuard_checkFits hp hrx hdue
  · obtain ⟨-, -, -, hchecked, -⟩ := byteStep_frame hu
    exact checkFits_of_unchecked (by simpa using hchecked)
  · have hunchecked := unchecked_of_not_drain hs (by simp [hp])
    exact checkFits_of_unchecked (by simpa using hunchecked)
  · have hunchecked := unchecked_of_not_drain hs (by simp [hp])
    exact checkFits_of_unchecked hunchecked

theorem step_checkFits {s t : State} (h : step s = .next t) (hs : s.checkFits) : t.checkFits := by
  obtain ⟨-, ⟨dt, b, -, rfl⟩ | ⟨dt, -, hloop⟩⟩ := step_cases h
  · exact arrive_checkFits b (s := s.takeInput) hs
  · exact loopStep_checkFits hloop hs

/-- Settles O54: each part of a step keeps the invariant of every run, and a check waits only where the drain made it. -/
theorem stepKeepsTheInvariant : Obligations.StepKeepsTheInvariant :=
  fun _ _ h => ⟨step_inv h, step_checkFits h⟩

/-! ### What the invariant says of the count (R23, R24, R26) -/

theorem count_lt_expTotal {s : State} (h : s.Inv) (hp : s.pstate = .accumulating) :
    s.count < expTotal s.ptype ∧ expTotal s.ptype = maxPkt s.cfg.dialect := by
  obtain ⟨-, hlt, htype⟩ := (countFits_accumulating hp).1 h.count
  exact ⟨hlt, by rw [htype, maxPkt_eq]⟩

theorem maxPkt_bounds (d : Dialect) : 259 ≤ maxPkt d ∧ maxPkt d ≤ 2051 := by cases d <;> decide

theorem count_le_maxPkt {s : State} (h : s.Inv) : s.count ≤ maxPkt s.cfg.dialect := by
  have hmax := (maxPkt_bounds s.cfg.dialect).1
  cases hp : s.pstate with
  | awaitHeader0 => have hcount := ((countFits_awaitHeader0 hp).1 h.count).1; omega
  | awaitHeader1 => have hcount := ((countFits_awaitHeader1 hp).1 h.count).1; omega
  | awaitType => have hcount := ((countFits_awaitType hp).1 h.count).1; omega
  | accumulating => obtain ⟨hlt, hmax⟩ := count_lt_expTotal h hp; omega

/-- An admitted `CNT_BITS` can hold the length of every packet (R23, I11). -/
theorem maxPkt_lt_cntBits {c : Config} (h : c.wf = true) : maxPkt c.dialect < 2 ^ c.cntBits := by
  have hbits : 12 ≤ c.cntBits := by
    simp only [Config.wf, Bool.and_eq_true, decide_eq_true_eq] at h
    exact h.2
  calc maxPkt c.dialect ≤ 2051 := (maxPkt_bounds _).2
    _ < 2 ^ 12 := by decide
    _ ≤ 2 ^ c.cntBits := Nat.pow_le_pow_right (by decide) hbits

/-- The buffer of a run is canonical and holds a byte at exactly the offsets below the count. -/
theorem pktFits_reads {s : State} (h : s.pktFits) : s.pkt.wf = true ∧ ∀ a, (s.pkt.read a).isSome = true ↔ a < s.count := by
  obtain ⟨bs, hpkt, hlen, -⟩ := (pktFits_iff s).1 h
  rw [hpkt, ← hlen]
  refine ⟨cellsFrom_wf 0 bs, fun a => ?_⟩
  have hread := read_cellsFrom 0 bs a
  rw [Nat.zero_add] at hread
  simp [hread]

/-- Settles O55: the count is bounded in each framer state, and the buffer is the run of the bytes counted. -/
theorem countStaysBelowThePacketLength : Obligations.CountStaysBelowThePacketLength := by
  unfold Obligations.CountStaysBelowThePacketLength
  intro s h
  obtain ⟨hwf, hreads⟩ := pktFits_reads h.pkt
  have hmax := count_le_maxPkt h
  refine ⟨hmax, hmax.trans_lt (maxPkt_lt_cntBits h.cfg), hwf, hreads, fun hp => ?_⟩
  obtain ⟨hlt, hexp⟩ := count_lt_expTotal h hp
  exact ⟨hlt, le_of_eq hexp⟩

end Sys2Proof.Machine
end

section
/-! The kinds of pixel each dialect writes (10_state.md R27): black and white are of both kinds, so only `Render8`, which runs in dialect 2 alone,
needs its dialect. -/

namespace Sys2Proof.Machine

theorem pixelKind_black (d : Dialect) : pixelKind d black := by
  cases d
  · exact .inl rfl
  · exact ⟨0x00, rfl⟩

theorem pixelKind_white (d : Dialect) : pixelKind d white := by
  cases d
  · exact .inr rfl
  · exact ⟨0xFF, rfl⟩

theorem blank_kindsFit (d : Dialect) : FrameBuffer.blank.kindsFit d :=
  kindsFit_of_pixels blank_wf d fun st i hi => ⟨black, by rw [pixel_blank, if_pos hi], pixelKind_black d⟩

/-- A rendered bitmap is black and white (R169), which fits both dialects. -/
theorem render1_kindsFit (bm : Vector Byte bitmapLen) (fb : FrameBuffer) (d : Dialect) : (render1 bm fb).kindsFit d := by
  refine kindsFit_of_pixels (render1_wf bm fb) d fun st i hi => ?_
  obtain ⟨hlit, hdark⟩ := pixel_render1 bm fb st i hi
  by_cases hl : ∃ p < npix, lights bm st i p
  · exact ⟨white, hlit hl, pixelKind_white d⟩
  · exact ⟨black, hdark (by simpa using hl), pixelKind_black d⟩

/-- Split intensities are grays (R170). -/
theorem render8_kindsFit (g : Vector Byte npix) (fb : FrameBuffer) : (render8 g fb).kindsFit .d2 :=
  kindsFit_of_pixels (render8_wf g fb) .d2 fun st i hi => ⟨_, by rw [pixel_render8, if_pos hi], _, rfl⟩

/-- What a byte step does to the strips, the sink and the recorded time: nothing, or it renders one packet and resets the framer (R111, R113). -/
theorem byteStep_frame_cases {b : Byte} {s t : State} (h : byteStep b s = .next t) :
    (t.fb = s.fb ∧ t.sink = s.sink ∧ t.lastFrame = s.lastFrame) ∨
    (∃ bm, t = parserReset .srDone ((s.accept s.count b).render1 bm)) ∨
    (∃ g, s.cfg.dialect = .d2 ∧ t = parserReset .srDone ((s.accept s.count b).render8 g)) := by
  rcases byteStep_cases b s with ⟨-, -, hs⟩ | ⟨-, -, hs⟩ | ⟨-, -, hs⟩ | ⟨-, -, hs⟩ | ⟨-, -, -, hs⟩ | ⟨-, -, -, hs⟩ |
    ⟨-, -, -, hs⟩ | ⟨-, -, -, -, -, hs⟩ | ⟨-, -, -, hs⟩ | ⟨-, -, -, hs⟩ | ⟨-, -, hs⟩ | ⟨-, -, -, hs⟩ |
    ⟨-, hlast, hroom, hs⟩ <;> rw [hs] at h
  iterate 12
    · cases h
      exact .inl (by simp [query])
  · rcases dispatchPacket_cases (s.accept s.count b) with ⟨bm, -, -, hd⟩ | ⟨g, htype, -, hd⟩ | hd <;> rw [hd] at h <;> cases h
    · exact .inr (.inl ⟨bm, rfl⟩)
    · exact .inr (.inr ⟨g, dialect_of_completion hlast hroom htype, rfl⟩)

/-- The pixels fit after an operation that leaves fitting strips and sends no frame but those. -/
theorem pixelsFit_of_frames {s t : State} (h : s.pixelsFit) (hcfg : t.cfg = s.cfg) (hfb : t.fb.kindsFit s.cfg.dialect)
    (hsink : ∀ fb, .emit fb ∈ t.sink → .emit fb ∈ s.sink ∨ fb = t.fb) : t.pixelsFit := by
  unfold State.pixelsFit
  rw [hcfg]
  refine ⟨hfb, fun fb hmem => ?_⟩
  rcases hsink fb hmem with hold | rfl
  · exact h.2 fb hold
  · exact hfb

theorem byteStep_pixelsFit {b : Byte} {s t : State} (hstep : byteStep b s = .next t) (h : s.pixelsFit) : t.pixelsFit := by
  have hcfg := (byteStep_frame hstep).1
  rcases byteStep_frame_cases hstep with ⟨hfb, hsink, -⟩ | ⟨bm, rfl⟩ | ⟨g, hd2, rfl⟩
  · exact pixelsFit_of_frames h hcfg (by rw [hfb]; exact h.1) fun fb hmem => .inl (by rwa [hsink] at hmem)
  · exact pixelsFit_of_frames h hcfg (render1_kindsFit _ _ _) fun fb hmem => by simpa using hmem
  · exact pixelsFit_of_frames h hcfg (by rw [hd2]; exact render8_kindsFit _ _) fun fb hmem => by simpa using hmem

theorem staleCheck_pixelsFit {s : State} (h : s.pixelsFit) : (staleCheck s).pixelsFit := by
  unfold staleCheck
  split
  · exact pixelsFit_of_frames h rfl (blank_kindsFit _) fun fb hmem => .inl (by simpa using hmem)
  · exact h

theorem arrive_pixelsFit (b : Byte) {s : State} (h : s.pixelsFit) : (arrive b s).pixelsFit := by
  unfold arrive
  split <;> exact h

/-- Settles O60: only a byte step and the staleness check write the strips or the sink, and both leave pixels of the dialect's kind. -/
theorem stepKeepsPixelKinds : Obligations.StepKeepsPixelKinds := by
  unfold Obligations.StepKeepsPixelKinds
  intro s t hs hstep
  exact step_keeps State.pixelsFit
    (input := fun _ h => h)
    (arrival := fun b _ h => arrive_pixelsFit b h)
    (phases := fun _ _ h => h)
    (pop := fun _ _ _ _ h => h)
    (checked := fun _ h => h)
    (discard := fun _ h => h)
    (bytes := fun _ _ _ hb h => byteStep_pixelsFit hb h)
    (stale := fun _ _ h => staleCheck_pixelsFit h) hstep hs

end Sys2Proof.Machine
end

section
/-! What a later state of a run has in common with an earlier one (10_state.md R33, R34, R37): the configuration, and time and output channels that
only grow. -/

namespace Sys2Proof.Machine

/-- `t` can come after `s` in a run, as far as the configuration, the time and the two output channels show. -/
structure State.ExtendedBy (s t : State) : Prop where
  /-- R34 -/
  cfg : t.cfg = s.cfg
  /-- R37 -/
  now : s.now ≤ t.now
  /-- R33 -/
  tx : s.tx <+: t.tx
  /-- R33 -/
  sink : s.sink <+: t.sink

theorem extendedBy_refl (s : State) : s.ExtendedBy s := ⟨rfl, le_refl _, List.prefix_refl _, List.prefix_refl _⟩

theorem State.ExtendedBy.trans {s t u : State} (h : s.ExtendedBy t) (h' : t.ExtendedBy u) : s.ExtendedBy u :=
  ⟨h'.cfg.trans h.cfg, h.now.trans h'.now, h.tx.trans h'.tx, h.sink.trans h'.sink⟩

theorem extendedBy_takeInput (s : State) : s.ExtendedBy s.takeInput :=
  { extendedBy_refl s with now := Nat.le_add_right _ _ }

theorem extendedBy_arrive (b : Byte) (s : State) : s.ExtendedBy (arrive b s) := by
  unfold arrive
  split
  · exact { extendedBy_refl s with }
  · exact extendedBy_refl s

theorem extendedBy_byteStep {b : Byte} {s t : State} (h : byteStep b s = .next t) : s.ExtendedBy t := by
  obtain ⟨hcfg, hnow, -, -, -, -, -, ⟨lines, htx⟩, events, hsink⟩ := byteStep_frame h
  exact ⟨hcfg, hnow.ge, ⟨lines, htx.symm⟩, events, hsink.symm⟩

theorem extendedBy_staleCheck (s : State) : s.ExtendedBy (staleCheck s) := by
  obtain ⟨hcfg, -, -, -, -, -, -, htx, hnow, events, hsink⟩ := staleCheck_frame s
  exact ⟨hcfg, hnow.ge, by rw [htx], events, hsink.symm⟩

theorem step_extends {s t : State} (h : step s = .next t) : s.ExtendedBy t :=
  step_keeps s.ExtendedBy
    (input := fun u hu => hu.trans (extendedBy_takeInput u))
    (arrival := fun b u hu => hu.trans (extendedBy_arrive b u))
    (phases := fun _ _ hu => { hu with })
    (pop := fun _ _ _ _ hu => { hu with })
    (checked := fun _ hu => { hu with })
    (discard := fun _ hu => { hu with })
    (bytes := fun _ _ _ hb hu => hu.trans (extendedBy_byteStep hb))
    (stale := fun u _ hu => hu.trans (extendedBy_staleCheck u)) h (extendedBy_refl s)

/-- Settles O50: the configuration and the time of a state that the step extends. -/
theorem configurationFixedTimeForward : Obligations.ConfigurationFixedTimeForward :=
  fun _ _ h => ⟨(step_extends h).cfg, (step_extends h).now⟩

/-- Settles O51: the channels of a state that the step extends. -/
theorem channelsAreAppendOnly : Obligations.ChannelsAreAppendOnly := by
  unfold Obligations.ChannelsAreAppendOnly
  intro s t h
  obtain ⟨lines, htx⟩ := (step_extends h).tx
  obtain ⟨events, hsink⟩ := (step_extends h).sink
  exact ⟨⟨lines, htx.symm⟩, events, hsink.symm⟩

end Sys2Proof.Machine
end

section
/-! The controller's view of the strips (10_state.md R29, D8), and the state after reset (R36, R260, R261) with the invariants that hold there. -/

namespace Sys2Proof.Machine

/-! ### The controller's view -/

theorem controllerSet_left {k : Nat} (h : k < 1024) (fb : FrameBuffer) (p : Pixel) :
    fb.controllerSet k p = fb.setPixel .left k p := if_pos h

theorem controllerSet_right {k : Nat} (h : 1024 ≤ k) (fb : FrameBuffer) (p : Pixel) :
    fb.controllerSet k p = fb.setPixel .right (k - 1024) p := if_neg (Nat.not_lt.2 h)

theorem controllerView_left {fb : FrameBuffer} (hfb : fb.wf = true) {k : Nat} (h : k < 1024) :
    fb.controllerView[k]? = fb.pixel .left k :=
  List.getElem?_append_left (by rw [((fb_wf_iff fb).1 hfb).1]; exact h)

theorem controllerView_right {fb : FrameBuffer} (hfb : fb.wf = true) {k : Nat} (h : 1024 ≤ k) :
    fb.controllerView[k]? = fb.pixel .right (k - 1024) := by
  obtain ⟨hleft, -⟩ := (fb_wf_iff fb).1 hfb
  have happ := List.getElem?_append_right (l₁ := fb.left) (l₂ := fb.right) (hleft.trans_le h)
  rwa [hleft] at happ

/-- A pixel written inside a strip reads as written. -/
theorem pixel_setPixel_same {fb : FrameBuffer} (hfb : fb.wf = true) (st : Strip) {i : Nat} (h : i < 1024) (p : Pixel) :
    (fb.setPixel st i p).pixel st i = some p := by
  rw [pixel_setPixel hfb, if_pos ⟨rfl, rfl, h⟩]

/-- Settles O29: the view's index selects the strip, and a strip ignores an index outside it. -/
theorem controllerViewIsLeftThenRight : Obligations.ControllerViewIsLeftThenRight := by
  unfold Obligations.ControllerViewIsLeftThenRight
  intro fb k p hfb
  refine ⟨fun hk => ⟨controllerView_left hfb hk, ?_⟩, fun hk hk' => ⟨controllerView_right hfb hk, ?_⟩, fun hk => ?_⟩
  · rw [controllerSet_left hk]
    exact pixel_setPixel_same hfb _ hk p
  · rw [controllerSet_right hk]
    exact pixel_setPixel_same hfb _ (by omega) p
  · rw [controllerSet_right (by omega)]
    exact setPixel_out (show 1024 ≤ k - 1024 by omega) fb _ p

/-! ### Reset -/

/-- Settles O52: the register values are those `State.resetOf` writes, and the strips are blank. -/
theorem resetValues : Obligations.ResetValues := by
  unfold Obligations.ResetValues
  intro c
  refine ⟨rfl, rfl, rfl, rfl, rfl, rfl, rfl, rfl, rfl, fun st i hi => ?_⟩
  have hblack := pixel_blank st i
  rwa [if_pos hi] at hblack

theorem resetOf_inv {c : Config} (h : c.wf = true) : (State.resetOf c).Inv where
  cfg := h
  count := ⟨rfl, rfl⟩
  pkt := ⟨rfl, rfl, rfl⟩
  fb := blank_wf
  rx := Nat.zero_le _
  noTimer := fun _ => rfl
  lastFrame := trivial

/-- After reset `TX` holds the banner and no reply yet. -/
theorem resetOf_txFits (c : Config) : (State.resetOf c).txFits := by
  unfold State.txFits
  cases hd : c.dialect with
  | d1 => simp only [resetOf_cfg, hd]; exact ⟨[], (List.append_nil _).symm, by simp⟩
  | d2 => simp only [resetOf_cfg, hd]; rfl

theorem resetOf_clearsFit (c : Config) : (State.resetOf c).clearsFit :=
  ⟨rfl, fun h => absurd h Bool.false_ne_true, fun _ => ⟨rfl, List.not_mem_nil⟩⟩

theorem resetOf_pixelsFit (c : Config) : (State.resetOf c).pixelsFit :=
  ⟨blank_kindsFit _, fun _ h => absurd h List.not_mem_nil⟩

/-- Settles O53: an idle framer, blank strips, an empty sink and the banner alone on `TX` meet each invariant. -/
theorem invariantsHoldAtReset : Obligations.InvariantsHoldAtReset :=
  fun c h => ⟨resetOf_inv h, checkFits_of_unchecked rfl, resetOf_txFits c, resetOf_clearsFit c, resetOf_pixelsFit c⟩

end Sys2Proof.Machine
end

section
/-! The framer reset as the answer of a byte step (20_memory.md R58, 40_framer.md R101), for every cause: here at the end of the packet buffer. -/

namespace Sys2Proof.Machine

/-- R101: whatever the cause, the framer registers return to their start and nothing else changes. -/
theorem framerResetOf_parserReset (c : Cause) (s : State) : FramerResetOf s (parserReset c s) := ⟨rfl, rfl, rfl, rfl⟩

/-- Settles O19: the append's guard fails at the end of the buffer, and its other branch is a framer reset. -/
theorem appendBeyondBufferResets : Obligations.AppendBeyondBufferResets :=
  fun b s hfull => ⟨_, exec_accAppend_bound b (.inr hfull), framerResetOf_parserReset .srBound s⟩

end Sys2Proof.Machine
end

section
/-! The packet decoder and the encoder are inverse to each other (30_encoding.md R71 to R79): what the decoder answers for a header and each type
byte, and from it that it reads every encoding, and nothing but encodings. -/

namespace Sys2Proof.Machine

/-! ### The packet decoder, one equation per header and type byte -/

/-- Both headers read, the type byte says which packet it is (R71). -/
theorem decodePacket_header (d : Dialect) (t : Byte) (body : List Byte) :
    decodePacket d (hdr0 :: hdr1 :: t :: body) = decodeBody d t body := rfl

theorem decodePacket_badHeader0 {b : Byte} (h : b ≠ hdr0) (d : Dialect) (bs : List Byte) :
    decodePacket d (b :: bs) = .error (.badHeader0 b) := if_pos h

theorem decodePacket_badHeader1 {b : Byte} (h : b ≠ hdr1) (d : Dialect) (bs : List Byte) :
    decodePacket d (hdr0 :: b :: bs) = .error (.badHeader1 b) := if_pos h

theorem decodeBody_ping (body : List Byte) : decodeBody .d1 tPing body = .ok (.ping, body) := rfl

theorem decodeBody_info (body : List Byte) : decodeBody .d1 tInfo body = .ok (.info, body) := rfl

/-- LED-1BIT takes its 256 payload bytes from the stream (R75). -/
theorem decodeBody_led1 {body more : List Byte} {bm : Vector Byte bitmapLen} (h : takeVec bitmapLen body = some (bm, more)) :
    decodeBody .d1 tLed1 body = .ok (.led1bit bm, more) := by
  simp [decodeBody, h]

theorem decodeBody_led1_truncated {body : List Byte} (h : takeVec bitmapLen body = none) :
    decodeBody .d1 tLed1 body = .error .truncated := by
  simp [decodeBody, h]

/-- LED takes its 2048 payload bytes from the stream (R76). -/
theorem decodeBody_led8 {body more : List Byte} {g : Vector Byte npix} (h : takeVec npix body = some (g, more)) :
    decodeBody .d2 tLed8 body = .ok (.led8 g, more) := by
  simp [decodeBody, h]

theorem decodeBody_led8_truncated {body : List Byte} (h : takeVec npix body = none) :
    decodeBody .d2 tLed8 body = .error .truncated := by
  simp [decodeBody, h]

/-- R78 in dialect 1. -/
theorem decodeBody_illegal_d1 {t : Byte} (hping : t ≠ tPing) (hinfo : t ≠ tInfo) (hled : t ≠ tLed1) (body : List Byte) :
    decodeBody .d1 t body = .error (.badType .d1 t) := by
  simp only [decodeBody, if_neg hping, if_neg hinfo, if_neg hled]

/-- R78 in dialect 2. -/
theorem decodeBody_illegal_d2 {t : Byte} (hled : t ≠ tLed8) (body : List Byte) :
    decodeBody .d2 t body = .error (.badType .d2 t) := by
  simp only [decodeBody, if_neg hled]

/-! ### Every encoding is read -/

/-- Settles O1: each command's encoding is the header, its own type byte and its payload, which the decoder takes back from the stream. -/
theorem packetDecodeInvertsEncode : Obligations.PacketDecodeInvertsEncode := by
  unfold Obligations.PacketDecodeInvertsEncode
  intro d i rest hi
  cases i with
  | ping =>
    cases hi
    exact (decodePacket_header _ _ _).trans <| decodeBody_ping rest
  | info =>
    cases hi
    exact (decodePacket_header _ _ _).trans <| decodeBody_info rest
  | led1bit bm =>
    cases hi
    exact (decodePacket_header _ _ _).trans <| decodeBody_led1 (takeVec_append bm rest)
  | led8 g =>
    cases hi
    exact (decodePacket_header _ _ _).trans <| decodeBody_led8 (takeVec_append g rest)
  | _ => cases hi

/-! ### Nothing but encodings is read -/

/-- A stream that is read begins with both headers and a type byte (R71, R79). -/
theorem header_of_decodePacket {d : Dialect} {bs : List Byte} {r : Instr × List Byte} (h : decodePacket d bs = .ok r) :
    ∃ t body, bs = hdr0 :: hdr1 :: t :: body ∧ decodeBody d t body = .ok r := by
  match bs with
  | [] => cases h
  | b0 :: r0 =>
    by_cases h0 : b0 = hdr0
    · subst h0
      match r0 with
      | [] => cases h
      | b1 :: r1 =>
        by_cases h1 : b1 = hdr1
        · subst h1
          match r1 with
          | [] => cases h
          | t :: body => exact ⟨t, body, rfl, (decodePacket_header d t body).symm.trans h⟩
        · rw [decodePacket_badHeader1 h1] at h
          cases h
    · rw [decodePacket_badHeader0 h0] at h
      cases h

/-- A packet that is read after its header is the command of its type byte, in its dialect, with the payload taken from the stream. -/
theorem encode_of_decodeBody {d : Dialect} {t : Byte} {body rest : List Byte} {i : Instr} (h : decodeBody d t body = .ok (i, rest)) :
    hdr0 :: hdr1 :: t :: body = encode i ++ rest ∧ packetDialect i = some d := by
  cases d with
  | d1 =>
    by_cases hping : t = tPing
    · subst hping
      rw [decodeBody_ping] at h
      cases h
      exact ⟨rfl, rfl⟩
    by_cases hinfo : t = tInfo
    · subst hinfo
      rw [decodeBody_info] at h
      cases h
      exact ⟨rfl, rfl⟩
    by_cases hled : t = tLed1
    · subst hled
      cases hpay : takeVec bitmapLen body with
      | none =>
        rw [decodeBody_led1_truncated hpay] at h
        cases h
      | some taken =>
        obtain ⟨bm, more⟩ := taken
        rw [decodeBody_led1 hpay] at h
        cases h
        rw [takeVec_eq_some hpay]
        exact ⟨rfl, rfl⟩
    · rw [decodeBody_illegal_d1 hping hinfo hled] at h
      cases h
  | d2 =>
    by_cases hled : t = tLed8
    · subst hled
      cases hpay : takeVec npix body with
      | none =>
        rw [decodeBody_led8_truncated hpay] at h
        cases h
      | some taken =>
        obtain ⟨g, more⟩ := taken
        rw [decodeBody_led8 hpay] at h
        cases h
        rw [takeVec_eq_some hpay]
        exact ⟨rfl, rfl⟩
    · rw [decodeBody_illegal_d2 hled] at h
      cases h

/-- Settles O2: what is read has both headers, and what follows them is the command of its type byte. -/
theorem packetDecoderReadsOnlyEncodings : Obligations.PacketDecoderReadsOnlyEncodings := by
  unfold Obligations.PacketDecoderReadsOnlyEncodings
  intro d bs rest i h
  obtain ⟨t, body, rfl, hbody⟩ := header_of_decodePacket h
  exact encode_of_decodeBody hbody

/-- Settles O5: after both headers the decoder rejects an illegal type byte by name. -/
theorem illegalTypeIsNoPacket : Obligations.IllegalTypeIsNoPacket :=
  fun _ rest =>
    ⟨fun hled hping hinfo => decodeBody_illegal_d1 hping hinfo hled rest, fun hled => decodeBody_illegal_d2 hled rest⟩

end Sys2Proof.Machine
end

section
/-! The byte decoder (40_framer.md R100) inverts the encoding of byte steps (30_encoding.md R81): what it answers in the contexts of each row of the
opcode table, and that a row is found by its mnemonic. -/

namespace Sys2Proof.Machine

/-! ### The byte decoder, one equation per row -/

section
variable {c : Ctx} {b : Byte}

theorem decodeByte_h0Accept (hs : c.pstate = .awaitHeader0) : decodeByte c hdr0 = .h0Accept := by
  simp [decodeByte, hs]

theorem decodeByte_h0Discard (hs : c.pstate = .awaitHeader0) (hb : b ≠ hdr0) : decodeByte c b = .h0Discard b := by
  simp only [decodeByte, hs, if_neg hb]

theorem decodeByte_h1Accept (hs : c.pstate = .awaitHeader1) : decodeByte c hdr1 = .h1Accept := by
  simp [decodeByte, hs]

theorem decodeByte_h1Reset (hs : c.pstate = .awaitHeader1) (hb : b ≠ hdr1) : decodeByte c b = .h1Reset b := by
  simp only [decodeByte, hs, if_neg hb]

theorem decodeByte_t1Ping (hs : c.pstate = .awaitType) (hd : c.dialect = .d1) : decodeByte c tPing = .t1Ping := by
  simp [decodeByte, hs, hd]

theorem decodeByte_t1Info (hs : c.pstate = .awaitType) (hd : c.dialect = .d1) : decodeByte c tInfo = .t1Info := by
  simp [decodeByte, hs, hd]

theorem decodeByte_t1Led1 (hs : c.pstate = .awaitType) (hd : c.dialect = .d1) : decodeByte c tLed1 = .t1Led1 := by
  simp [decodeByte, hs, hd]

theorem decodeByte_t1Reset (hs : c.pstate = .awaitType) (hd : c.dialect = .d1) (hled : b ≠ tLed1) (hping : b ≠ tPing)
    (hinfo : b ≠ tInfo) : decodeByte c b = .t1Reset b := by
  simp only [decodeByte, hs, hd, if_neg hled, if_neg hping, if_neg hinfo]

theorem decodeByte_t2Led8 (hs : c.pstate = .awaitType) (hd : c.dialect = .d2) : decodeByte c tLed8 = .t2Led8 := by
  simp [decodeByte, hs, hd]

theorem decodeByte_t2Reset (hs : c.pstate = .awaitType) (hd : c.dialect = .d2) (hb : b ≠ tLed8) :
    decodeByte c b = .t2Reset b := by
  simp only [decodeByte, hs, hd, if_neg hb]

theorem decodeByte_accAppend (hs : c.pstate = .accumulating) (hc : c.count < expTotal c.ptype) :
    decodeByte c b = .accAppend b := by
  simp [decodeByte, hs, hc]

theorem decodeByte_accBound (hs : c.pstate = .accumulating) (hc : expTotal c.ptype ≤ c.count) :
    decodeByte c b = .accBound b := by
  simp [decodeByte, hs, hc]

end

/-! ### Well-formed fallback bytes, and the fields of a row -/

@[simp] theorem wellFormed_h0Discard (b : Byte) : (Instr.h0Discard b).wellFormed = true ↔ b ≠ hdr0 := bne_iff_ne

@[simp] theorem wellFormed_h1Reset (b : Byte) : (Instr.h1Reset b).wellFormed = true ↔ b ≠ hdr1 := bne_iff_ne

@[simp] theorem wellFormed_t1Reset (b : Byte) :
    (Instr.t1Reset b).wellFormed = true ↔ b ≠ tLed1 ∧ b ≠ tPing ∧ b ≠ tInfo := by
  simp [Instr.wellFormed, and_assoc]

@[simp] theorem wellFormed_t2Reset (b : Byte) : (Instr.t2Reset b).wellFormed = true ↔ b ≠ tLed8 := bne_iff_ne

@[simp] theorem belowExp_holds (c : Ctx) : RowCond.belowExp.holds c = true ↔ c.count < expTotal c.ptype := decide_eq_true_iff

@[simp] theorem atExp_holds (c : Ctx) : RowCond.atExp.holds c = true ↔ expTotal c.ptype ≤ c.count := decide_eq_true_iff

/-- A row of one dialect speaks of contexts of that dialect only. -/
theorem dialect_of_row {r : ByteRow} {c : Ctx} {d : Dialect} (hr : r.dialect = some d)
    (hd : r.dialect = none ∨ r.dialect = some c.dialect) : c.dialect = d := by
  rw [hr] at hd
  exact (Option.some.inj (hd.resolve_left (Option.some_ne_none d))).symm

/-- Where one row alone has an instruction's mnemonic and its encoding is one byte, the row and the byte of the instruction are these. -/
theorem row_and_byte {i : Instr} {r r₀ : ByteRow} {b b₀ : Byte} (honly : byteRows.filter (fun r => r.mnemonic == i.mnemonic) = [r₀])
    (hbyte : encode i = [b₀]) (hr : r ∈ byteRows) (hm : r.mnemonic = i.mnemonic) (henc : encode i = [b]) : r = r₀ ∧ b = b₀ := by
  have hmem : r ∈ byteRows.filter fun r => r.mnemonic == i.mnemonic := List.mem_filter.2 ⟨hr, beq_iff_eq.2 hm⟩
  rw [honly] at hmem
  exact ⟨List.mem_singleton.1 hmem, List.singleton_inj.1 (henc.symm.trans hbyte)⟩

/-! ### Every byte is read back -/

/-- Settles O3: the mnemonic finds the instruction's row, and in the contexts of that row the decoder's equation is the row's. -/
theorem byteDecodeInvertsEncode : Obligations.ByteDecodeInvertsEncode := by
  unfold Obligations.ByteDecodeInvertsEncode
  intro c i b r hwf henc hr hm hd hs hc
  cases i with
  | ping | info | led1bit | led8 => cases henc
  | h0Accept =>
    obtain ⟨rfl, rfl⟩ := row_and_byte rfl rfl hr hm henc
    exact decodeByte_h0Accept hs.symm
  | h0Discard b' =>
    obtain ⟨rfl, rfl⟩ := row_and_byte rfl rfl hr hm henc
    exact decodeByte_h0Discard hs.symm ((wellFormed_h0Discard _).1 hwf)
  | h1Accept =>
    obtain ⟨rfl, rfl⟩ := row_and_byte rfl rfl hr hm henc
    exact decodeByte_h1Accept hs.symm
  | h1Reset b' =>
    obtain ⟨rfl, rfl⟩ := row_and_byte rfl rfl hr hm henc
    exact decodeByte_h1Reset hs.symm ((wellFormed_h1Reset _).1 hwf)
  | t1Ping =>
    obtain ⟨rfl, rfl⟩ := row_and_byte rfl rfl hr hm henc
    exact decodeByte_t1Ping hs.symm (dialect_of_row rfl hd)
  | t1Info =>
    obtain ⟨rfl, rfl⟩ := row_and_byte rfl rfl hr hm henc
    exact decodeByte_t1Info hs.symm (dialect_of_row rfl hd)
  | t1Led1 =>
    obtain ⟨rfl, rfl⟩ := row_and_byte rfl rfl hr hm henc
    exact decodeByte_t1Led1 hs.symm (dialect_of_row rfl hd)
  | t1Reset b' =>
    obtain ⟨rfl, rfl⟩ := row_and_byte rfl rfl hr hm henc
    obtain ⟨hled, hping, hinfo⟩ := (wellFormed_t1Reset _).1 hwf
    exact decodeByte_t1Reset hs.symm (dialect_of_row rfl hd) hled hping hinfo
  | t2Led8 =>
    obtain ⟨rfl, rfl⟩ := row_and_byte rfl rfl hr hm henc
    exact decodeByte_t2Led8 hs.symm (dialect_of_row rfl hd)
  | t2Reset b' =>
    obtain ⟨rfl, rfl⟩ := row_and_byte rfl rfl hr hm henc
    exact decodeByte_t2Reset hs.symm (dialect_of_row rfl hd) ((wellFormed_t2Reset _).1 hwf)
  | accAppend b' =>
    obtain ⟨rfl, rfl⟩ := row_and_byte rfl rfl hr hm henc
    exact decodeByte_accAppend hs.symm ((belowExp_holds c).1 hc)
  | accBound b' =>
    obtain ⟨rfl, rfl⟩ := row_and_byte rfl rfl hr hm henc
    exact decodeByte_accBound hs.symm ((atExp_holds c).1 hc)

/-- Settles O6: the two query packets are encodings, and each byte is read by its row's equation. -/
theorem tableWordsDecode : Obligations.TableWordsDecode :=
  ⟨packetDecodeInvertsEncode .d1 .ping [] rfl, packetDecodeInvertsEncode .d1 .info [] rfl,
    decodeByte_h0Accept rfl, decodeByte_h1Accept rfl, decodeByte_t1Led1 rfl rfl, decodeByte_t2Reset rfl rfl (by decide),
    decodeByte_t2Led8 rfl rfl, decodeByte_accAppend rfl (by decide)⟩

end Sys2Proof.Machine
end

section
/-! What belongs to one dialect only (30_encoding.md R78, 41_packet_commands.md R140), executed in the other. -/

namespace Sys2Proof.Machine

/-- The meaning of a packet command is guarded by the command's dialect (R140). -/
theorem exec_packet {i : Instr} {d : Dialect} (h : packetDialect i = some d) (s : State) :
    ∃ run, exec i s = .next (inDialect d run s) := by
  cases i with
  | ping => cases h; exact ⟨_, exec_ping s⟩
  | info => cases h; exact ⟨_, exec_info s⟩
  | led1bit bm => cases h; exact ⟨_, exec_led1bit bm s⟩
  | led8 g => cases h; exact ⟨_, exec_led8 g s⟩
  | _ => cases h

/-- Outside its dialect, a meaning guarded by a dialect is a framer reset (R78). -/
theorem framerReset_of_other_dialect {i : Instr} {s : State} {d : Dialect} {run : State → State}
    (hexec : exec i s = .next (inDialect d run s)) (hd : s.cfg.dialect ≠ d) : ∃ t, exec i s = .next t ∧ FramerResetOf s t :=
  ⟨parserReset .srType s, by rw [hexec, inDialect_of_ne hd], framerResetOf_parserReset _ s⟩

/-- Settles O16: each of the eight meanings is guarded by its dialect, and the state's dialect is the other one. -/
theorem otherDialectResetsSilently : Obligations.OtherDialectResetsSilently := by
  unfold Obligations.OtherDialectResetsSilently
  rintro i s (⟨hd2, hi⟩ | ⟨hd1, hi⟩)
  · have hne : s.cfg.dialect ≠ .d1 := by rw [hd2]; decide
    obtain rfl | rfl | rfl | hi := hi
    · exact framerReset_of_other_dialect (exec_t1Ping s) hne
    · exact framerReset_of_other_dialect (exec_t1Info s) hne
    · exact framerReset_of_other_dialect (exec_t1Led1 s) hne
    · obtain ⟨run, hexec⟩ := exec_packet hi s
      exact framerReset_of_other_dialect hexec hne
  · have hne : s.cfg.dialect ≠ .d2 := by rw [hd1]; decide
    obtain rfl | hi := hi
    · exact framerReset_of_other_dialect (exec_t2Led8 s) hne
    · obtain ⟨run, hexec⟩ := exec_packet hi s
      exact framerReset_of_other_dialect hexec hne

end Sys2Proof.Machine
end

section
/-! The byte steps row by row (40_framer.md R101 to R112): what each row's meaning answers, and which byte meets the row in which framer state. -/

namespace Sys2Proof.Machine

/-- `Step(S, b)` is the meaning of the row the byte meets (R100). -/
theorem byteStep_of_decode {b : Byte} {i : Instr} {s : State} (h : decodeByte s.ctx b = i) : byteStep b s = exec i s := by
  rw [byteStep, h]

/-- A state that differs from `s` in a written buffer offset and the framer registers at most has that byte stored, and nothing else changed. -/
theorem storedAt_of_write {i : Nat} {b : Byte} {s t : State} (hpkt : t.pkt = s.pkt.write i b)
    (hframe : { t with pkt := s.pkt, pstate := s.pstate, count := s.count, ptype := s.ptype } = s) : StoredAt i b s t := by
  refine ⟨?_, fun a ha => ?_, hframe⟩
  · rw [hpkt, read_write_same]
  · rw [hpkt, read_write_other s.pkt b ha]

/-- A meaning that is a framer reset answers one. -/
theorem framerReset_of_exec {i : Instr} {c : Cause} {s : State} (h : exec i s = .next (parserReset c s)) :
    ∃ t, exec i s = .next t ∧ FramerResetOf s t :=
  ⟨_, h, framerResetOf_parserReset c s⟩

/-- Settles O7: R101 holds of every cause. -/
theorem parserResetReturnsToStart : Obligations.ParserResetReturnsToStart := framerResetOf_parserReset

/-! ### The header bytes (R102 to R105) -/

/-- Settles O8: the answer of H0.ACCEPT is a buffer write at offset 0 with the framer registers set. -/
theorem headerZeroAccepted : Obligations.HeaderZeroAccepted :=
  fun s => ⟨⟨_, exec_h0Accept s, storedAt_of_write rfl rfl, rfl, rfl, rfl⟩, fun hp => byteStep_of_decode (decodeByte_h0Accept hp)⟩

/-- Settles O9: each byte of the stream meets H0.DISCARD, which answers the same state, so the next one does too. -/
theorem nonHeaderDiscarded : Obligations.NonHeaderDiscarded := by
  unfold Obligations.NonHeaderDiscarded
  refine ⟨exec_h0Discard, fun bs s hp hbs => ?_⟩
  induction bs with
  | nil => rfl
  | cons b bs ih =>
    obtain ⟨hb, hrest⟩ := List.forall_mem_cons.1 hbs
    have hstep : byteStep b s = .next s := byteStep_of_decode (decodeByte_h0Discard hp hb)
    rw [feed_cons, hstep]
    exact ih hrest

/-- Settles O10: the answer of H1.ACCEPT is a buffer write at offset 1 with the framer registers set. -/
theorem headerOneAccepted : Obligations.HeaderOneAccepted :=
  fun s => ⟨⟨_, exec_h1Accept s, storedAt_of_write rfl rfl, rfl, rfl, rfl⟩, fun hp => byteStep_of_decode (decodeByte_h1Accept hp)⟩

/-- Settles O11: every byte but the second header meets H1.RESET, which answers a framer reset. -/
theorem headerOneMismatchResets : Obligations.HeaderOneMismatchResets := by
  unfold Obligations.HeaderOneMismatchResets
  have hreset (b : Byte) (s : State) := framerReset_of_exec (exec_h1Reset b s)
  refine ⟨hreset, fun s hp b hb => ?_⟩
  rw [byteStep_of_decode (decodeByte_h1Reset hp hb)]
  exact hreset b s

/-! ### The type bytes (R106 to R110) -/

/-- Settles O12: a query of dialect 1 sends its reply, and the byte it stores is gone with the reset. -/
theorem queryTypeRepliesAndResets : Obligations.QueryTypeRepliesAndResets := by
  unfold Obligations.QueryTypeRepliesAndResets
  intro s hd
  refine ⟨⟨query tPing doPing s, ?_, rfl, rfl, rfl, rfl⟩, ⟨query tInfo doInfo s, ?_, ?_⟩, fun hp => ⟨?_, ?_⟩⟩
  · rw [exec_t1Ping, inDialect_of_eq hd]
  · rw [exec_t1Info, inDialect_of_eq hd]
  · rw [query, doInfo_eq]
    exact ⟨rfl, rfl, rfl, rfl⟩
  · exact byteStep_of_decode (decodeByte_t1Ping hp hd)
  · exact byteStep_of_decode (decodeByte_t1Info hp hd)

/-- Settles O13: in its dialect T1.LED1 begins a packet, which writes the type byte and sets the framer registers. -/
theorem led1TypeBeginsAccumulating : Obligations.Led1TypeBeginsAccumulating := by
  unfold Obligations.Led1TypeBeginsAccumulating
  intro s hd
  refine ⟨⟨beginPacket tLed1 .led1bit s, ?_, storedAt_of_write rfl rfl, rfl, rfl, rfl, rfl⟩, fun hp => ?_⟩
  · rw [exec_t1Led1, inDialect_of_eq hd]
  · exact byteStep_of_decode (decodeByte_t1Led1 hp hd)

/-- Settles O15: in its dialect T2.LED8 begins a packet, which writes the type byte and sets the framer registers. -/
theorem led8TypeBeginsAccumulating : Obligations.Led8TypeBeginsAccumulating := by
  unfold Obligations.Led8TypeBeginsAccumulating
  intro s hd
  refine ⟨⟨beginPacket tLed8 .led8 s, ?_, storedAt_of_write rfl rfl, rfl, rfl, rfl, rfl⟩, fun hp => ?_⟩
  · rw [exec_t2Led8, inDialect_of_eq hd]
  · exact byteStep_of_decode (decodeByte_t2Led8 hp hd)

/-- Settles O14: both fallback rows answer a framer reset, and they are the rows of the bytes that are no type byte of the dialect. -/
theorem illegalTypeResets : Obligations.IllegalTypeResets :=
  fun b s =>
    ⟨framerReset_of_exec (exec_t1Reset b s), framerReset_of_exec (exec_t2Reset b s),
      fun hp hd hled hping hinfo => byteStep_of_decode (decodeByte_t1Reset hp hd hled hping hinfo),
      fun hp hd hled => byteStep_of_decode (decodeByte_t2Reset hp hd hled)⟩

/-- Settles O18: ACC.BOUND answers a framer reset, and is the row of every byte at the expected total or beyond. -/
theorem defensiveBoundAborts : Obligations.DefensiveBoundAborts :=
  ⟨fun b s => framerReset_of_exec (exec_accBound b s), fun _ _ hp hcount => decodeByte_accBound hp hcount⟩

end Sys2Proof.Machine
end

section
/-! The opcode table read by row (30_encoding.md R81, 40_framer.md R100): which rows speak of a context, which of them take a byte, and from it
that every byte meets exactly one row. -/

namespace Sys2Proof.Machine

/-! ### A row fits when it speaks of the context and takes the byte -/

/-- The row is of the context's dialect and framer state, and its condition holds there. -/
def rowSpeaksOf (c : Ctx) (r : ByteRow) : Bool :=
  (r.dialect == none || r.dialect == some c.dialect) && r.pstate == c.pstate && r.cond.holds c

/-- The byte has the row's match under its mask. -/
def rowTakes (b : Byte) (r : ByteRow) : Bool := (b &&& r.mask) == r.mtch

/-- The rows that speak of a context. -/
def rowsOf (c : Ctx) : List ByteRow := byteRows.filter (rowSpeaksOf c)

/-- The exact rows that a byte fits in a context. -/
def exactRows (c : Ctx) (b : Byte) : List ByteRow := (rowsOf c).filter fun r => !r.fallback && rowTakes b r

/-- The fallback rows that a byte fits in a context. -/
def fallbackRows (c : Ctx) (b : Byte) : List ByteRow := (rowsOf c).filter fun r => r.fallback && rowTakes b r

theorem fits_eq (r : ByteRow) (c : Ctx) (b : Byte) : r.fits c b = (rowSpeaksOf c r && rowTakes b r) := rfl

theorem exactRows_eq (c : Ctx) (b : Byte) : exactRows c b = byteRows.filter fun r => !r.fallback && r.fits c b := by
  simp only [exactRows, rowsOf, List.filter_filter, fits_eq, Bool.and_assoc, Bool.and_comm (rowTakes b _)]

theorem fallbackRows_eq (c : Ctx) (b : Byte) : fallbackRows c b = byteRows.filter fun r => r.fallback && r.fits c b := by
  simp only [fallbackRows, rowsOf, List.filter_filter, fits_eq, Bool.and_assoc, Bool.and_comm (rowTakes b _)]

/-- The row that applies is the first exact row that fits, else the first fallback row that fits. -/
theorem rowFor_eq (c : Ctx) (b : Byte) : rowFor c b = (exactRows c b).head?.or (fallbackRows c b).head? := by
  simp only [rowFor, exactRows_eq, fallbackRows_eq, List.head?_filter]

/-- An exact header or type row, whose mask is full, takes its own byte only (R81(b)). -/
@[simp] theorem rowTakes_fullMask (m : String) (d : Option Dialect) (p : PState) (own b : Byte) (cond : RowCond) (f : Bool) :
    rowTakes b ⟨m, d, p, own, 255#8, cond, f⟩ = decide (b = own) := by
  rw [Bool.eq_iff_iff, rowTakes, beq_iff_eq, decide_eq_true_iff, show b &&& 255#8 = b from BitVec.and_allOnes]

/-- Any other row, whose mask is empty, takes every byte. -/
@[simp] theorem rowTakes_emptyMask (m : String) (d : Option Dialect) (p : PState) (b : Byte) (cond : RowCond) (f : Bool) :
    rowTakes b ⟨m, d, p, 0#8, 0#8, cond, f⟩ = true := beq_iff_eq.2 BitVec.and_zero

/-! ### The rows of each framer state -/

section
variable {c : Ctx}

theorem rowsOf_awaitHeader0 (hs : c.pstate = .awaitHeader0) :
    rowsOf c =
      [⟨"H0.ACCEPT", none, .awaitHeader0, 0xAA, 0xFF, .always, false⟩,
        ⟨"H0.DISCARD", none, .awaitHeader0, 0x00, 0x00, .always, true⟩] := by
  simp [rowsOf, byteRows, rowSpeaksOf, RowCond.holds, hs]

theorem rowsOf_awaitHeader1 (hs : c.pstate = .awaitHeader1) :
    rowsOf c =
      [⟨"H1.ACCEPT", none, .awaitHeader1, 0xBB, 0xFF, .always, false⟩,
        ⟨"H1.RESET", none, .awaitHeader1, 0x00, 0x00, .always, true⟩] := by
  simp [rowsOf, byteRows, rowSpeaksOf, RowCond.holds, hs]

theorem rowsOf_awaitType_d1 (hs : c.pstate = .awaitType) (hd : c.dialect = .d1) :
    rowsOf c =
      [⟨"T1.PING", some .d1, .awaitType, 0x05, 0xFF, .always, false⟩,
        ⟨"T1.INFO", some .d1, .awaitType, 0x06, 0xFF, .always, false⟩,
        ⟨"T1.LED1", some .d1, .awaitType, 0x03, 0xFF, .always, false⟩,
        ⟨"T1.RESET", some .d1, .awaitType, 0x00, 0x00, .always, true⟩] := by
  simp [rowsOf, byteRows, rowSpeaksOf, RowCond.holds, hs, hd]

theorem rowsOf_awaitType_d2 (hs : c.pstate = .awaitType) (hd : c.dialect = .d2) :
    rowsOf c =
      [⟨"T2.LED8", some .d2, .awaitType, 0x01, 0xFF, .always, false⟩,
        ⟨"T2.RESET", some .d2, .awaitType, 0x00, 0x00, .always, true⟩] := by
  simp [rowsOf, byteRows, rowSpeaksOf, RowCond.holds, hs, hd]

theorem rowsOf_belowExp (hs : c.pstate = .accumulating) (hc : c.count < expTotal c.ptype) :
    rowsOf c = [⟨"ACC.APPEND", none, .accumulating, 0x00, 0x00, .belowExp, false⟩] := by
  simp [rowsOf, byteRows, rowSpeaksOf, RowCond.holds, hs, hc]

theorem rowsOf_atExp (hs : c.pstate = .accumulating) (hc : expTotal c.ptype ≤ c.count) :
    rowsOf c = [⟨"ACC.BOUND", none, .accumulating, 0x00, 0x00, .atExp, false⟩] := by
  simp [rowsOf, byteRows, rowSpeaksOf, RowCond.holds, hs, hc]

end

/-! ### Every byte meets one row -/

/-- The row that applies has the mnemonic of the decoded instruction, which is well-formed and encoded by the byte, and no second row of either kind
fits (the conclusion of O4 for one context and byte). -/
def MeetsOneRow (c : Ctx) (b : Byte) : Prop :=
  (rowFor c b).map ByteRow.mnemonic = some (decodeByte c b).mnemonic ∧ (decodeByte c b).wellFormed = true ∧
    encode (decodeByte c b) = [b] ∧ (exactRows c b).length ≤ 1 ∧ (fallbackRows c b).length ≤ 1

theorem meetsOneRow_exact {c : Ctx} {b : Byte} {i : Instr} (hdecode : decodeByte c b = i) (hwf : i.wellFormed = true)
    (henc : encode i = [b]) (hexact : (exactRows c b).map ByteRow.mnemonic = [i.mnemonic])
    (hfallback : (fallbackRows c b).length ≤ 1) : MeetsOneRow c b := by
  subst hdecode
  refine ⟨?_, hwf, henc, ?_, hfallback⟩
  · rw [rowFor_eq, Option.map_or, ← List.head?_map, hexact]
    rfl
  · rw [← List.length_map (f := ByteRow.mnemonic), hexact]
    exact le_refl 1

theorem meetsOneRow_fallback {c : Ctx} {b : Byte} {i : Instr} (hdecode : decodeByte c b = i) (hwf : i.wellFormed = true)
    (henc : encode i = [b]) (hexact : exactRows c b = []) (hfallback : (fallbackRows c b).map ByteRow.mnemonic = [i.mnemonic]) :
    MeetsOneRow c b := by
  subst hdecode
  refine ⟨?_, hwf, henc, ?_, ?_⟩
  · rw [rowFor_eq, hexact, List.head?_nil, Option.none_or, ← List.head?_map, hfallback]
    rfl
  · rw [hexact]
    exact Nat.zero_le 1
  · rw [← List.length_map (f := ByteRow.mnemonic), hfallback]
    exact le_refl 1

theorem meetsOneRow (c : Ctx) (b : Byte) : MeetsOneRow c b := by
  cases hs : c.pstate with
  | awaitHeader0 =>
    have hrows := rowsOf_awaitHeader0 hs
    by_cases hb : b = hdr0
    · subst hb
      refine meetsOneRow_exact (decodeByte_h0Accept hs) rfl rfl ?_ ?_ <;> simp [exactRows, fallbackRows, hrows, Instr.mnemonic]
    · exact meetsOneRow_fallback (decodeByte_h0Discard hs hb) ((wellFormed_h0Discard b).2 hb) rfl (by simpa [exactRows, hrows] using hb)
        (by simp [fallbackRows, hrows, Instr.mnemonic])
  | awaitHeader1 =>
    have hrows := rowsOf_awaitHeader1 hs
    by_cases hb : b = hdr1
    · subst hb
      refine meetsOneRow_exact (decodeByte_h1Accept hs) rfl rfl ?_ ?_ <;> simp [exactRows, fallbackRows, hrows, Instr.mnemonic]
    · exact meetsOneRow_fallback (decodeByte_h1Reset hs hb) ((wellFormed_h1Reset b).2 hb) rfl (by simpa [exactRows, hrows] using hb)
        (by simp [fallbackRows, hrows, Instr.mnemonic])
  | awaitType =>
    cases hd : c.dialect with
    | d1 =>
      have hrows := rowsOf_awaitType_d1 hs hd
      by_cases hping : b = tPing
      · subst hping
        refine meetsOneRow_exact (decodeByte_t1Ping hs hd) rfl rfl ?_ ?_ <;> simp [exactRows, fallbackRows, hrows, Instr.mnemonic]
      by_cases hinfo : b = tInfo
      · subst hinfo
        refine meetsOneRow_exact (decodeByte_t1Info hs hd) rfl rfl ?_ ?_ <;> simp [exactRows, fallbackRows, hrows, Instr.mnemonic]
      by_cases hled : b = tLed1
      · subst hled
        refine meetsOneRow_exact (decodeByte_t1Led1 hs hd) rfl rfl ?_ ?_ <;> simp [exactRows, fallbackRows, hrows, Instr.mnemonic]
      · exact meetsOneRow_fallback (decodeByte_t1Reset hs hd hled hping hinfo) ((wellFormed_t1Reset b).2 ⟨hled, hping, hinfo⟩) rfl
          (by simpa [exactRows, hrows] using ⟨hping, hinfo, hled⟩) (by simp [fallbackRows, hrows, Instr.mnemonic])
    | d2 =>
      have hrows := rowsOf_awaitType_d2 hs hd
      by_cases hled : b = tLed8
      · subst hled
        refine meetsOneRow_exact (decodeByte_t2Led8 hs hd) rfl rfl ?_ ?_ <;> simp [exactRows, fallbackRows, hrows, Instr.mnemonic]
      · exact meetsOneRow_fallback (decodeByte_t2Reset hs hd hled) ((wellFormed_t2Reset b).2 hled) rfl
          (by simpa [exactRows, hrows] using hled) (by simp [fallbackRows, hrows, Instr.mnemonic])
  | accumulating =>
    by_cases hc : c.count < expTotal c.ptype
    · have hrows := rowsOf_belowExp hs hc
      refine meetsOneRow_exact (decodeByte_accAppend hs hc) rfl rfl ?_ ?_ <;> simp [exactRows, fallbackRows, hrows, Instr.mnemonic]
    · have hrows := rowsOf_atExp hs (not_lt.1 hc)
      refine meetsOneRow_exact (decodeByte_accBound hs (not_lt.1 hc)) rfl rfl ?_ ?_ <;> simp [exactRows, fallbackRows, hrows, Instr.mnemonic]

/-- Settles O4: framer state by framer state, from the rows that speak of it and the decoder's equation for the one that takes the byte. -/
theorem everyByteMeetsOneRow : Obligations.EveryByteMeetsOneRow := by
  unfold Obligations.EveryByteMeetsOneRow
  intro c b
  rw [← exactRows_eq, ← fallbackRows_eq]
  exact meetsOneRow c b

end Sys2Proof.Machine
end

section
/-! The bytes of the packet in progress (10_state.md R24): what the packet buffer of a run holds is a list of bytes, which every accepted byte
lengthens, and which the last payload byte makes a whole encoding. From it the payload byte in a run (40_framer.md R111), and the rule that nothing
but a whole packet has an output (R113). -/

namespace Sys2Proof.Machine

/-- The accepted bytes of the packet in progress, in the order of their offsets. -/
def State.packetBytes (s : State) : List Byte := s.pkt.map Prod.snd

/-- The framer registers and the packet buffer agree: the two clauses of the invariant that speak of the framer alone (R23 to R25). -/
def State.framerFits (s : State) : Prop := s.countFits ∧ s.pktFits

theorem framerFits_of_idle {s : State} (h : s.framerIdle) : s.framerFits := by
  obtain ⟨hp, hcount, htype, hpkt⟩ := h
  refine ⟨(countFits_awaitHeader0 hp).2 ⟨hcount, htype⟩, ?_, ?_, ?_⟩ <;> simp [hpkt, hcount]

/-- In `AWAIT_HEADER_0` nothing has been accepted. -/
theorem framerIdle_of_awaitHeader0 {s : State} (h : s.framerFits) (hp : s.pstate = .awaitHeader0) : s.framerIdle := by
  obtain ⟨hcount, -, hlen, -⟩ := h
  obtain ⟨hzero, htype⟩ := (countFits_awaitHeader0 hp).1 hcount
  exact ⟨hp, hzero, htype, List.length_eq_zero_iff.1 (hlen.trans hzero)⟩

theorem pkt_eq_cellsFrom {s : State} (h : s.pktFits) : s.pkt = Memory.cellsFrom 0 s.packetBytes := h.1

theorem packetBytes_length {s : State} (h : s.pktFits) : s.packetBytes.length = s.count := by
  obtain ⟨-, hlen, -⟩ := h
  rw [State.packetBytes, List.length_map, hlen]

theorem packetBytes_take {s : State} (h : s.pktFits) :
    s.packetBytes.take 3 = [hdr0, hdr1, ledTypeByte s.cfg.dialect].take s.count := h.2.2

/-- Accepting a byte at the count appends it to the buffer's run. -/
theorem write_count {s : State} (h : s.pktFits) (b : Byte) :
    s.pkt.write s.count b = Memory.cellsFrom 0 (s.packetBytes ++ [b]) := by
  rw [← write_cellsFrom, ← pkt_eq_cellsFrom h, packetBytes_length h, Nat.zero_add]

/-- The bytes of a packet whose header and type are accepted, and that `b` completes: the LED packet of the dialect with some payload. -/
theorem packetBytes_complete {s : State} {n : Nat} (h : s.pktFits) (hmin : 3 ≤ s.count) (hlast : s.count + 1 = 3 + n) (b : Byte) :
    ∃ v : Vector Byte n, s.packetBytes ++ [b] = hdr0 :: hdr1 :: ledTypeByte s.cfg.dialect :: v.toList := by
  have hlen := packetBytes_length h
  refine payload_split ?_ (by simpa [hlen] using hlast)
  rw [List.take_append_of_le_length (by omega), packetBytes_take h, List.take_of_length_le (by simpa using hmin)]

/-! ### A payload byte in a state of a run (R111) -/

/-- The payload of the packet that `b` completes: the bytes stored at offsets 3 on, and `b`. -/
theorem payload_of_completion {s : State} {m : Nat} (h : s.pktFits) (hlast : s.count = 3 + m) (b : Byte) :
    ∃ v : Vector Byte (m + 1), (∀ k < m, s.pkt.read (3 + k) = some (payloadByte v k)) ∧ payloadByte v m = b ∧
      (s.accept s.count b).payload (m + 1) = some v := by
  obtain ⟨v, hv⟩ := packetBytes_complete (n := m + 1) h (by omega) (by omega) b
  have hcells : (s.accept s.count b).pkt = Memory.cellsFrom 0 (hdr0 :: hdr1 :: ledTypeByte s.cfg.dialect :: v.toList) := by
    rw [accept_pkt, write_count h, hv]
  have hread (k : Nat) (hk : k < m + 1) : (s.pkt.write s.count b).read (3 + k) = some (payloadByte v k) := by
    have hcell := read_cellsFrom 0 (hdr0 :: hdr1 :: ledTypeByte s.cfg.dialect :: v.toList) (3 + k)
    rw [Nat.zero_add, ← hcells, accept_pkt] at hcell
    rw [hcell, Nat.add_comm 3 k]
    simp [payloadByte, hk]
  refine ⟨v, fun k hk => ?_, ?_, payload_of_cells ?_ hcells⟩
  · rw [← hread k (by omega), read_write_other _ _ (by omega)]
  · have hb := hread m (by omega)
    rw [← hlast, read_write_same] at hb
    exact (Option.some.inj hb).symm
  · rw [accept_count, hlast]
    exact Nat.add_assoc 3 m 1

/-- Settles O17: below the total the append is a buffer write at the count; at the total the payload is read back from the buffer's run of bytes,
rendered, and gone with the reset. -/
theorem payloadByteAppendsOrCompletes : Obligations.PayloadByteAppendsOrCompletes := by
  unfold Obligations.PayloadByteAppendsOrCompletes
  intro b s hinv hp
  obtain ⟨hlt, hmax⟩ := count_lt_expTotal hinv hp
  have hroom : s.count < maxPkt s.cfg.dialect := by omega
  refine ⟨byteStep_of_decode (decodeByte_accAppend hp hlt), fun hmore => ?_, fun hlast htype => ?_, fun hlast htype => ?_⟩
  · exact ⟨_, exec_accAppend_more b hmore hroom, storedAt_of_write rfl rfl, rfl, rfl, rfl⟩
  · have hcount : s.count = 3 + 255 := by rw [htype] at hlast; exact Nat.succ.inj hlast
    obtain ⟨bm, hreads, hb, hpay⟩ := payload_of_completion hinv.pkt hcount b
    exact ⟨bm, _, hreads, hb, (exec_accAppend_last b hlast hroom).trans (dispatchPacket_led1 htype hpay), rfl, rfl, rfl, rfl⟩
  · have hcount : s.count = 3 + 2047 := by rw [htype] at hlast; exact Nat.succ.inj hlast
    obtain ⟨g, hreads, hb, hpay⟩ := payload_of_completion hinv.pkt hcount b
    exact ⟨g, _, hreads, hb, (exec_accAppend_last b hlast hroom).trans (dispatchPacket_led8 htype hpay), rfl, rfl, rfl, rfl⟩

/-! ### Nothing but a whole packet has an output (R113) -/

/-- The type byte of the dialect's LED packet is accepted into a packet that fits (R107, R109). -/
theorem beginPacket_framerFits {d : Dialect} {s : State} (h : s.framerFits) (hp : s.pstate = .awaitType) (hd : s.cfg.dialect = d) :
    (beginPacket (ledTypeByte d) (ledType d) s).framerFits ∧
      (beginPacket (ledTypeByte d) (ledType d) s).pkt = s.pkt.write s.count (ledTypeByte d) := by
  subst hd
  obtain ⟨hfits, hpkt⟩ := h
  obtain ⟨hcount, -⟩ := (countFits_awaitType hp).1 hfits
  have hroom : 3 < expTotal (some (ledType s.cfg.dialect)) := by cases s.cfg.dialect <;> decide
  exact ⟨⟨⟨le_refl 3, hroom, rfl⟩, pktFits_accept hpkt hcount fun _ => rfl⟩, by rw [hcount, beginPacket_pkt]⟩

/-- A byte step ends the packet in progress, or accepts the byte into it. -/
theorem byteStep_packet {b : Byte} {s t : State} (h : s.framerFits) (hstep : byteStep b s = .next t) :
    t.framerIdle ∨ (t.framerFits ∧ t.pkt = s.pkt.write s.count b) := by
  have reset {c : Cause} {u : State} (hs : byteStep b s = .next (parserReset c u)) : t.framerIdle := by
    rw [hs] at hstep
    cases hstep
    exact ⟨rfl, rfl, rfl, rfl⟩
  obtain ⟨hcount, hpkt⟩ := id h
  rcases byteStep_cases b s with ⟨hp, rfl, hs⟩ | ⟨hp, -, hs⟩ | ⟨hp, rfl, hs⟩ | ⟨-, -, hs⟩ | ⟨-, -, -, hs⟩ | ⟨-, -, -, hs⟩ |
    ⟨hp, hd, rfl, hs⟩ | ⟨-, -, -, -, -, hs⟩ | ⟨hp, hd, rfl, hs⟩ | ⟨-, -, -, hs⟩ | ⟨-, -, hs⟩ | ⟨hp, hmore, -, hs⟩ | ⟨-, -, -, hs⟩
  · obtain ⟨hzero, htype⟩ := (countFits_awaitHeader0 hp).1 hcount
    cases hs.symm.trans hstep
    exact .inr ⟨⟨⟨rfl, htype⟩, pktFits_accept hpkt hzero fun _ => rfl⟩, by rw [hzero, accept_pkt]⟩
  · cases hs.symm.trans hstep
    exact .inl (framerIdle_of_awaitHeader0 h hp)
  · obtain ⟨hone, htype⟩ := (countFits_awaitHeader1 hp).1 hcount
    cases hs.symm.trans hstep
    exact .inr ⟨⟨⟨rfl, htype⟩, pktFits_accept hpkt hone fun _ => rfl⟩, by rw [hone, accept_pkt]⟩
  · exact .inl (reset hs)
  · exact .inl (reset hs)
  · exact .inl (reset hs)
  · cases hs.symm.trans hstep
    exact .inr (beginPacket_framerFits (d := .d1) h hp hd)
  · exact .inl (reset hs)
  · cases hs.symm.trans hstep
    exact .inr (beginPacket_framerFits (d := .d2) h hp hd)
  · exact .inl (reset hs)
  · exact .inl (reset hs)
  · obtain ⟨hmin, -, htype⟩ := (countFits_accumulating hp).1 hcount
    cases hs.symm.trans hstep
    have hfits : (s.accept s.count b).countFits :=
      (countFits_accumulating (s := s.accept s.count b) hp).2 ⟨Nat.le_succ_of_le hmin, hmore, htype⟩
    exact .inr ⟨⟨hfits, pktFits_accept hpkt rfl fun hlt => absurd hmin (by omega)⟩, rfl⟩
  · rcases dispatchPacket_cases (s.accept s.count b) with ⟨bm, -, -, hd⟩ | ⟨g, -, -, hd⟩ | hd
    · exact .inl (reset (hs.trans hd))
    · exact .inl (reset (hs.trans hd))
    · cases (hs.trans hd).symm.trans hstep

/-- A byte that sends a reply or a frame is the type byte of a query, or the byte that completes a payload. -/
theorem output_cases {b : Byte} {s t : State} (hstep : byteStep b s = .next t) (hout : t.tx ≠ s.tx ∨ t.sink ≠ s.sink) :
    (s.pstate = .awaitType ∧ s.cfg.dialect = .d1 ∧ (b = tPing ∨ b = tInfo)) ∨
      (s.pstate = .accumulating ∧ s.count + 1 = expTotal s.ptype) := by
  have silent {u : State} (hs : byteStep b s = .next u) (htx : u.tx = s.tx) (hsink : u.sink = s.sink) : False := by
    cases hs.symm.trans hstep
    exact hout.elim (fun h => h htx) (fun h => h hsink)
  rcases byteStep_cases b s with ⟨-, -, hs⟩ | ⟨-, -, hs⟩ | ⟨-, -, hs⟩ | ⟨-, -, hs⟩ | ⟨hp, hd, hb, -⟩ | ⟨hp, hd, hb, -⟩ |
    ⟨-, -, -, hs⟩ | ⟨-, -, -, -, -, hs⟩ | ⟨-, -, -, hs⟩ | ⟨-, -, -, hs⟩ | ⟨-, -, hs⟩ | ⟨-, -, -, hs⟩ | ⟨hp, hlast, -, -⟩
  iterate 4 · exact (silent hs rfl rfl).elim
  · exact .inl ⟨hp, hd, .inl hb⟩
  · exact .inl ⟨hp, hd, .inr hb⟩
  iterate 6 · exact (silent hs rfl rfl).elim
  · exact .inr ⟨hp, hlast⟩

/-- The accepted bytes and a byte that sends a reply or a frame are the whole encoding of a packet command of the dialect. -/
theorem encode_of_output {b : Byte} {s t : State} (h : s.framerFits) (hstep : byteStep b s = .next t)
    (hout : t.tx ≠ s.tx ∨ t.sink ≠ s.sink) : ∃ i, packetDialect i = some s.cfg.dialect ∧ s.packetBytes ++ [b] = encode i := by
  obtain ⟨hcount, hpkt⟩ := h
  obtain ⟨hp, hd, hquery⟩ | ⟨hp, hlast⟩ := output_cases hstep hout
  · obtain ⟨htwo, -⟩ := (countFits_awaitType hp).1 hcount
    have hlen := packetBytes_length hpkt
    have hbytes := packetBytes_take hpkt
    rw [List.take_of_length_le (by omega), htwo] at hbytes
    rw [hbytes, hd]
    obtain rfl | rfl := hquery
    · exact ⟨.ping, rfl, rfl⟩
    · exact ⟨.info, rfl, rfl⟩
  · obtain ⟨hmin, -, htype⟩ := (countFits_accumulating hp).1 hcount
    rw [htype] at hlast
    cases hd : s.cfg.dialect with
    | d1 =>
      obtain ⟨bm, hbytes⟩ := packetBytes_complete (n := bitmapLen) hpkt hmin (by rw [hlast, hd]; rfl) b
      exact ⟨.led1bit bm, rfl, by rw [hbytes, hd]; rfl⟩
    | d2 =>
      obtain ⟨g, hbytes⟩ := packetBytes_complete (n := npix) hpkt hmin (by rw [hlast, hd]; rfl) b
      exact ⟨.led8 g, rfl, by rw [hbytes, hd]; rfl⟩

/-! ### The packet in progress among the bytes fed -/

/-- `t` comes from `s` by the bytes `bs`, the last of which are the packet in progress, begun in `AWAIT_HEADER_0`. -/
structure FedTo (s : State) (bs : List Byte) (t : State) : Prop where
  cfg : t.cfg = s.cfg
  fits : t.framerFits
  packet : ∃ before m, bs = before ++ t.packetBytes ∧ feed before s = .next m ∧ m.pstate = .awaitHeader0

theorem feed_singleton (b : Byte) (s : State) : feed [b] s = byteStep b s := by
  rw [feed_cons]
  cases byteStep b s <;> rfl

/-- An answer for one more byte is a step of that byte from the answer for the others. -/
theorem feed_snoc {bs : List Byte} {b : Byte} {s u : State} (h : feed (bs ++ [b]) s = .next u) :
    ∃ t, feed bs s = .next t ∧ byteStep b t = .next u := by
  rw [feed_append] at h
  cases ht : feed bs s with
  | next t =>
    rw [ht] at h
    exact ⟨t, rfl, (feed_singleton b t).symm.trans h⟩
  | fault f =>
    rw [ht] at h
    cases h
  | refused r =>
    rw [ht] at h
    cases h

/-- From an idle framer, whatever is fed, by induction on the bytes from their end. -/
theorem fedTo_of_feed {bs : List Byte} {s t : State} (hidle : s.framerIdle) (h : feed bs s = .next t) : FedTo s bs t := by
  induction bs using List.reverseRecOn generalizing t with
  | nil =>
    cases h
    obtain ⟨hp, -, -, hpkt⟩ := id hidle
    exact ⟨rfl, framerFits_of_idle hidle, [], s, by simp [State.packetBytes, hpkt], rfl, hp⟩
  | append_singleton bs b ih =>
    obtain ⟨m, hm, hstep⟩ := feed_snoc h
    obtain ⟨hcfg, hfits, before, m₀, hbytes, hbefore, hp₀⟩ := ih hm
    have hcfg' : t.cfg = s.cfg := (byteStep_frame hstep).1.trans hcfg
    rcases byteStep_packet hfits hstep with hreset | ⟨hfits', hpkt⟩
    · obtain ⟨hp, -, -, hnil⟩ := id hreset
      exact ⟨hcfg', framerFits_of_idle hreset, bs ++ [b], t, by simp [State.packetBytes, hnil], h, hp⟩
    · refine ⟨hcfg', hfits', before, m₀, ?_, hbefore, hp₀⟩
      rw [State.packetBytes, hpkt, write_count hfits.2, cellsFrom_bytes, hbytes, List.append_assoc]

/-- Settles O25: the packet in progress was begun in `AWAIT_HEADER_0`, and the byte with an output makes it a whole encoding. -/
theorem outputsOnlyAtTheEndOfAPacket : Obligations.OutputsOnlyAtTheEndOfAPacket := by
  unfold Obligations.OutputsOnlyAtTheEndOfAPacket
  intro bs b s t u hidle hfeed hstep hout
  obtain ⟨hcfg, hfits, before, m, hbytes, hbefore, hp⟩ := fedTo_of_feed hidle hfeed
  obtain ⟨i, hdialect, hencode⟩ := encode_of_output hfits hstep hout
  exact ⟨before, i, m, hcfg ▸ hdialect, by rw [hbytes, List.append_assoc, hencode], hbefore, hp⟩

end Sys2Proof.Machine
end

section
/-! A whole packet fed byte by byte (40_framer.md R114): the payload bytes are a run of writes to the packet buffer, whatever it held before, and the
byte that completes them dispatches them all. -/

namespace Sys2Proof.Machine

/-! ### A run of writes to the packet buffer -/

/-- The bytes `bs` written one after the other from offset `i` on. -/
def writeRun (m : Memory) (i : Nat) : List Byte → Memory
  | [] => m
  | b :: bs => writeRun (m.write i b) (i + 1) bs

theorem writeRun_cons (m : Memory) (i : Nat) (b : Byte) (bs : List Byte) :
    writeRun m i (b :: bs) = writeRun (m.write i b) (i + 1) bs := rfl

theorem writeRun_wf {m : Memory} (h : m.wf = true) (i : Nat) (bs : List Byte) : (writeRun m i bs).wf = true := by
  induction bs generalizing m i with
  | nil => exact h
  | cons b bs ih => exact ih (write_wf h i b) (i + 1)

theorem read_writeRun_below (m : Memory) {i j : Nat} (h : j < i) (bs : List Byte) : (writeRun m i bs).read j = m.read j := by
  induction bs generalizing m i with
  | nil => rfl
  | cons b bs ih => rw [writeRun_cons, ih _ (by omega), read_write_other m b (by omega)]

theorem read_writeRun (m : Memory) (i : Nat) {bs : List Byte} {k : Nat} (h : k < bs.length) :
    (writeRun m i bs).read (i + k) = bs[k]? := by
  induction bs generalizing m i k with
  | nil => exact absurd h (Nat.not_lt_zero k)
  | cons b bs ih =>
    cases k with
    | zero =>
      have hkept := read_writeRun_below (m.write i b) (Nat.lt_add_one i) bs
      rw [writeRun_cons, Nat.add_zero i, hkept, read_write_same, List.getElem?_cons_zero]
    | succ k =>
      rw [writeRun_cons, List.getElem?_cons_succ, ← ih (m.write i b) (i + 1) (by simpa using h)]
      congr 1
      omega

/-! ### The payload fed to an accumulating framer -/

/-- The bytes `bs` accepted one after the other at the count. -/
def State.acceptRun (bs : List Byte) (s : State) : State :=
  { s with pkt := writeRun s.pkt s.count bs, count := s.count + bs.length }

theorem acceptRun_cons (b : Byte) (bs : List Byte) (s : State) :
    s.acceptRun (b :: bs) = (s.accept s.count b).acceptRun bs := by
  show { s with pkt := _, count := s.count + (bs.length + 1) } = { s with pkt := _, count := s.count + 1 + bs.length }
  rw [Nat.add_right_comm s.count 1 bs.length]
  rfl

/-- Bytes that reach the expected total exactly are all accepted, and then dispatched (R111). -/
theorem feed_completion {bs : List Byte} {s : State} (hp : s.pstate = .accumulating) (hne : bs ≠ [])
    (htotal : s.count + bs.length = expTotal s.ptype) (hroom : expTotal s.ptype ≤ maxPkt s.cfg.dialect) :
    feed bs s = dispatchPacket (s.acceptRun bs) := by
  induction bs generalizing s with
  | nil => exact absurd rfl hne
  | cons b bs ih =>
    rw [List.length_cons] at htotal
    have hstep : byteStep b s = exec (.accAppend b) s :=
      byteStep_of_decode (decodeByte_accAppend hp (show s.count < expTotal s.ptype by omega))
    rw [acceptRun_cons]
    cases bs with
    | nil => rw [feed_singleton, hstep, exec_accAppend_last b htotal (by omega)]; rfl
    | cons b' bs =>
      rw [List.length_cons] at htotal
      rw [feed_cons, hstep, exec_accAppend_more b (by omega) (by omega)]
      exact ih hp (List.cons_ne_nil b' bs) (by rw [accept_count, accept_ptype, List.length_cons]; omega) hroom

/-! ### The header fed to an idle framer -/

/-- Both header bytes accepted (R102, R104). -/
def State.acceptHeader (s : State) : State :=
  { s with pstate := .awaitType, count := 2, pkt := writeRun s.pkt 0 [hdr0, hdr1] }

theorem feed_header {s : State} (hp : s.pstate = .awaitHeader0) (bs : List Byte) :
    feed (hdr0 :: hdr1 :: bs) s = feed bs s.acceptHeader := by
  have hzero : byteStep hdr0 s = .next { s.accept 0 hdr0 with pstate := .awaitHeader1 } :=
    byteStep_of_decode (decodeByte_h0Accept hp)
  have hone : byteStep hdr1 { s.accept 0 hdr0 with pstate := .awaitHeader1 } = .next s.acceptHeader :=
    byteStep_of_decode (decodeByte_h1Accept rfl)
  rw [feed_cons, hzero]
  exact (feed_cons ..).trans (by rw [hone])

/-! ### The whole packet -/

theorem byteStep_t1Ping {s : State} (hp : s.pstate = .awaitType) (hd : s.cfg.dialect = .d1) :
    byteStep tPing s = .next (query tPing doPing s) := by
  rw [byteStep_of_decode (decodeByte_t1Ping hp hd), exec_t1Ping, inDialect_of_eq hd]

theorem byteStep_t1Info {s : State} (hp : s.pstate = .awaitType) (hd : s.cfg.dialect = .d1) :
    byteStep tInfo s = .next (query tInfo doInfo s) := by
  rw [byteStep_of_decode (decodeByte_t1Info hp hd), exec_t1Info, inDialect_of_eq hd]

/-- The type byte of the dialect's LED packet (R107, R109). -/
theorem byteStep_ledType {d : Dialect} {s : State} (hp : s.pstate = .awaitType) (hd : s.cfg.dialect = d) :
    byteStep (ledTypeByte d) s = .next (beginPacket (ledTypeByte d) (ledType d) s) := by
  cases d with
  | d1 => exact (byteStep_of_decode (decodeByte_t1Led1 hp hd)).trans (by rw [exec_t1Led1, inDialect_of_eq hd]; rfl)
  | d2 => exact (byteStep_of_decode (decodeByte_t2Led8 hp hd)).trans (by rw [exec_t2Led8, inDialect_of_eq hd]; rfl)

/-- The LED packet of dialect `d` with the payload bytes `bs` accepted, header and type byte among them. -/
def State.acceptLed (d : Dialect) (bs : List Byte) (s : State) : State :=
  { s with
    pstate := .accumulating
    count := 3 + bs.length
    ptype := some (ledType d)
    pkt := writeRun s.pkt 0 (hdr0 :: hdr1 :: ledTypeByte d :: bs) }

theorem acceptRun_beginPacket (d : Dialect) (bs : List Byte) (s : State) :
    (beginPacket (ledTypeByte d) (ledType d) s.acceptHeader).acceptRun bs = s.acceptLed d bs := rfl

/-- The payload is read back from a canonical buffer, which need not have been empty. -/
theorem payload_acceptLed {n : Nat} (v : Vector Byte n) (d : Dialect) {s : State} (hwf : s.pkt.wf = true) :
    (s.acceptLed d v.toList).payload n = some v := by
  have hlen : v.toList.length = n := v.length_toList
  refine payload_of_reads ?_ (writeRun_wf hwf 0 _) fun k hk => ?_
  · show 3 + v.toList.length = 3 + n
    rw [hlen]
  · have hread := read_writeRun s.pkt 0 (bs := hdr0 :: hdr1 :: ledTypeByte d :: v.toList) (k := 3 + k) (by simp; omega)
    rw [Nat.zero_add, Nat.add_comm 3 k] at hread
    rw [Nat.add_comm]
    exact hread

/-- A whole LED packet of the dialect is accepted, and then dispatched (R107, R109, R111). -/
theorem feed_led {d : Dialect} {bs : List Byte} {s : State} (hd : s.cfg.dialect = d) (hp : s.pstate = .awaitHeader0)
    (hlen : 3 + bs.length = maxPkt d) :
    feed (hdr0 :: hdr1 :: ledTypeByte d :: bs) s = dispatchPacket (s.acceptLed d bs) := by
  have hpos := (maxPkt_bounds d).1
  have htype : byteStep (ledTypeByte d) s.acceptHeader = .next (beginPacket (ledTypeByte d) (ledType d) s.acceptHeader) :=
    byteStep_ledType rfl hd
  rw [feed_header hp, feed_cons, htype, ← acceptRun_beginPacket]
  refine feed_completion rfl (List.ne_nil_of_length_pos (by omega)) ?_ ?_
  · rw [beginPacket_count, beginPacket_ptype, hlen, maxPkt_eq]
  · rw [beginPacket_ptype, beginPacket_cfg, ← maxPkt_eq, ← hd]
    exact le_refl _

/-- A framer reset of a state whose framer is at its start changes the packet buffer at most. -/
theorem eq_of_framerReset {u v : State} (h : FramerResetOf u v) (hp : u.pstate = .awaitHeader0) (hcount : u.count = 0)
    (htype : u.ptype = none) : { v with pkt := u.pkt } = u := by
  obtain ⟨hvp, hvcount, hvtype, hrest⟩ := h
  rwa [hp, hcount, htype, ← hvp, ← hvcount, ← hvtype] at hrest

/-- Settles O24: the bytes of the packet end in the framer reset of a state that has the command's effect, and the framer was at its start. -/
theorem wholePacketHasItsCommandsEffect : Obligations.WholePacketHasItsCommandsEffect := by
  unfold Obligations.WholePacketHasItsCommandsEffect
  intro i s hi hp hcount htype hwf
  cases i with
  | ping =>
    have hd : s.cfg.dialect = .d1 := (Option.some.inj hi).symm
    have hfeed : feed (encode .ping) s = .next (query tPing doPing s.acceptHeader) :=
      (feed_header hp [tPing]).trans ((feed_singleton ..).trans (byteStep_t1Ping rfl hd))
    have hexec : exec .ping s = .next (doPing s) := by rw [exec_ping, inDialect_of_eq hd]
    exact ⟨_, _, hfeed, hexec, eq_of_framerReset ⟨rfl, rfl, rfl, rfl⟩ hp hcount htype⟩
  | info =>
    have hd : s.cfg.dialect = .d1 := (Option.some.inj hi).symm
    have hfeed : feed (encode .info) s = .next (query tInfo doInfo s.acceptHeader) :=
      (feed_header hp [tInfo]).trans ((feed_singleton ..).trans (byteStep_t1Info rfl hd))
    rw [query, doInfo_eq] at hfeed
    have hexec : exec .info s = .next { s with tx := s.tx ++ s.cfg.infoLines } := by rw [exec_info, inDialect_of_eq hd, doInfo_eq]
    exact ⟨_, _, hfeed, hexec, eq_of_framerReset ⟨rfl, rfl, rfl, rfl⟩ hp hcount htype⟩
  | led1bit bm =>
    have hd : s.cfg.dialect = .d1 := (Option.some.inj hi).symm
    have hfeed : feed (encode (.led1bit bm)) s = dispatchPacket (s.acceptLed .d1 bm.toList) :=
      feed_led hd hp (congrArg (3 + ·) bm.length_toList)
    rw [dispatchPacket_led1 rfl (payload_acceptLed bm .d1 hwf)] at hfeed
    have hexec : exec (.led1bit bm) s = .next (s.render1 bm) := by rw [exec_led1bit, inDialect_of_eq hd]
    exact ⟨_, _, hfeed, hexec, eq_of_framerReset ⟨rfl, rfl, rfl, rfl⟩ hp hcount htype⟩
  | led8 g =>
    have hd : s.cfg.dialect = .d2 := (Option.some.inj hi).symm
    have hfeed : feed (encode (.led8 g)) s = dispatchPacket (s.acceptLed .d2 g.toList) :=
      feed_led hd hp (congrArg (3 + ·) g.length_toList)
    rw [dispatchPacket_led8 rfl (payload_acceptLed g .d2 hwf)] at hfeed
    have hexec : exec (.led8 g) s = .next (s.render8 g) := by rw [exec_led8, inDialect_of_eq hd]
    exact ⟨_, _, hfeed, hexec, eq_of_framerReset ⟨rfl, rfl, rfl, rfl⟩ hp hcount htype⟩
  | _ => cases hi

end Sys2Proof.Machine
end

section
/-! The packet commands in their own dialect (41_packet_commands.md R141 to R144), and what they leave on the reply channel: after the banner `TX`
holds nothing but replies, in dialect 2 nothing at all (R146). -/

namespace Sys2Proof.Machine

/-! ### The commands (R141 to R144) -/

/-- In its own dialect, a meaning guarded by a dialect is what it guards (R140). -/
theorem exec_of_own_dialect {i : Instr} {s : State} {d : Dialect} {run : State → State}
    (hexec : exec i s = .next (inDialect d run s)) (hd : s.cfg.dialect = d) : exec i s = .next (run s) := by
  rw [hexec, inDialect_of_eq hd]

/-- An admitted configuration ends its INFO lines with `OK` (R142, I6). -/
theorem infoLines_end_with_ok {c : Config} (h : c.wf = true) : c.infoLines.getLast? = some "OK" := by
  simp only [Config.wf, Bool.and_eq_true, beq_iff_eq] at h
  obtain ⟨⟨-, hlast⟩, -⟩ := h
  exact hlast

/-- Settles O20: in dialect 1 PING is `DoPing`, which sends one line. -/
theorem pingSendsPong : Obligations.PingSendsPong :=
  fun s hd => exec_of_own_dialect (exec_ping s) hd

/-- Settles O21: in dialect 1 INFO is `DoInfo`, which sends all its lines, so that the last line of `TX` is the last of them. -/
theorem infoSendsInfoLines : Obligations.InfoSendsInfoLines := by
  unfold Obligations.InfoSendsInfoLines
  intro s hd
  refine ⟨?_, fun hwf => ?_⟩
  · rw [exec_of_own_dialect (exec_info s) hd, doInfo_eq]
  · rw [List.getLast?_append, infoLines_end_with_ok hwf, Option.some_or]

/-- Settles O22: in dialect 1 LED-1BIT is `Render1` of the bitmap, which starts from cleared strips. -/
theorem led1BitRendersAndEmits : Obligations.Led1BitRendersAndEmits :=
  fun bm s hd => ⟨exec_of_own_dialect (exec_led1bit bm s) hd, fun fb => render1_prev bm fb s.fb⟩

/-- Settles O23: in dialect 2 LED is `Render8` of the intensities, which records the time after its frame. -/
theorem led8RendersEmitsAndRecords : Obligations.Led8RendersEmitsAndRecords :=
  fun g s hd => exec_of_own_dialect (exec_led8 g s) hd

/-! ### The reply channel (R146) -/

/-- What a byte step does to `TX`: nothing, or in dialect 1 it sends the reply of one query (R106, R113). -/
theorem byteStep_tx_cases {b : Byte} {s t : State} (hstep : byteStep b s = .next t) :
    t.tx = s.tx ∨ (s.cfg.dialect = .d1 ∧ (t.tx = s.tx ++ ["PONG"] ∨ t.tx = s.tx ++ s.cfg.infoLines)) := by
  rcases byteStep_cases b s with ⟨-, -, hs⟩ | ⟨-, -, hs⟩ | ⟨-, -, hs⟩ | ⟨-, -, hs⟩ | ⟨-, hd, -, hs⟩ | ⟨-, hd, -, hs⟩ |
    ⟨-, -, -, hs⟩ | ⟨-, -, -, -, -, hs⟩ | ⟨-, -, -, hs⟩ | ⟨-, -, -, hs⟩ | ⟨-, -, hs⟩ | ⟨-, -, -, hs⟩ |
    ⟨-, -, -, hs⟩ <;> rw [hs] at hstep
  iterate 4 · cases hstep; exact .inl rfl
  · cases hstep
    exact .inr ⟨hd, .inl rfl⟩
  · cases hstep
    exact .inr ⟨hd, .inr (by simp [query])⟩
  iterate 6 · cases hstep; exact .inl rfl
  · rcases dispatchPacket_cases (s.accept s.count b) with ⟨bm, -, -, hout⟩ | ⟨g, -, -, hout⟩ | hout <;>
      rw [hout] at hstep <;> cases hstep
    · exact .inl rfl
    · exact .inl rfl

/-- Whatever sends no line keeps `TX` as it may be. -/
theorem txFits_of_silent {s t : State} (h : s.txFits) (hcfg : t.cfg = s.cfg) (htx : t.tx = s.tx) : t.txFits := by
  unfold State.txFits
  rwa [hcfg, htx]

/-- In dialect 1 `TX` still fits when more replies are sent. -/
theorem txFits_of_replies {s t : State} {lines : List Line} (h : s.txFits) (hd : s.cfg.dialect = .d1) (hcfg : t.cfg = s.cfg)
    (htx : t.tx = s.tx ++ lines) (hlines : ∀ l ∈ lines, l = "PONG" ∨ l ∈ s.cfg.infoLines) : t.txFits := by
  unfold State.txFits at h ⊢
  rw [hd] at h
  obtain ⟨replies, hold, hreplies⟩ := h
  rw [hcfg, hd]
  refine ⟨replies ++ lines, by rw [htx, hold, List.append_assoc], fun l hl => ?_⟩
  exact (List.mem_append.1 hl).elim (hreplies l) (hlines l)

theorem byteStep_txFits {b : Byte} {s t : State} (hstep : byteStep b s = .next t) (h : s.txFits) : t.txFits := by
  have hcfg := (byteStep_frame hstep).1
  obtain htx | ⟨hd, htx | htx⟩ := byteStep_tx_cases hstep
  · exact txFits_of_silent h hcfg htx
  · exact txFits_of_replies h hd hcfg htx fun l hl => .inl (List.mem_singleton.1 hl)
  · exact txFits_of_replies h hd hcfg htx fun l hl => .inr hl

theorem arrive_txFits (b : Byte) {s : State} (h : s.txFits) : (arrive b s).txFits := by
  unfold arrive
  split <;> exact h

theorem staleCheck_txFits {s : State} (h : s.txFits) : (staleCheck s).txFits := by
  obtain ⟨hcfg, -, -, -, -, -, -, htx, -⟩ := staleCheck_frame s
  exact txFits_of_silent h hcfg htx

/-- Settles O58: of all parts of a step only a byte step sends lines, and those are replies of dialect 1. -/
theorem stepKeepsOnlyRepliesOnTx : Obligations.StepKeepsOnlyRepliesOnTx :=
  fun _ _ hs hstep => step_keeps State.txFits
    (input := fun _ h => h)
    (arrival := fun b _ h => arrive_txFits b h)
    (phases := fun _ _ h => h)
    (pop := fun _ _ _ _ h => h)
    (checked := fun _ h => h)
    (discard := fun _ h => h)
    (bytes := fun _ _ _ hb h => byteStep_txFits hb h)
    (stale := fun _ _ h => staleCheck_txFits h) hstep hs

end Sys2Proof.Machine
end

section
/-! The panel transform (42_pixel_mapper.md R166 to R168, R171 to R173): its closed form, and the inverse map as its inverse on both sides. -/

namespace Sys2Proof.Machine

/-- A line carries the columns of its own panel column, and no others (R166, R167). -/
theorem div_eq_expectedColumn_iff {x : Nat} (hx : x < 32) (line : Strip) : x / 16 = expectedColumn line ↔ lineOf x = line := by
  unfold lineOf
  split <;> cases line <;> simp only [expectedColumn, reduceCtorEq, iff_true, iff_false] <;> omega

/-- The place in a row of a panel: even local rows run from right to left (R168). -/
def snake (row k : Nat) : Nat := if row % 2 = 0 then 15 - k else k

theorem snake_lt (row n : Nat) : snake row (n % 16) < 16 := by
  unfold snake
  split <;> omega

/-- Running a row backwards twice gives the place back, which is why the inverse map has the same form (R173). -/
theorem snake_snake (row n : Nat) : snake row (snake row (n % 16)) = n % 16 := by
  unfold snake
  split <;> omega

/-- The LED index of a position on its own line, in the closed form of R172. -/
def ledIndex (x y : Nat) : Nat := 256 * (y / 16) + 16 * (y % 16) + snake (y % 16) (x % 16)

theorem ledIndex_lt (x : Nat) {y : Nat} (hy : y < 64) : ledIndex x y < 1024 := by
  have hk := snake_lt (y % 16) x
  unfold ledIndex
  omega

/-- The transform answers exactly for the positions of the matrix on their own line, and answers the closed form (R168, R172). -/
theorem geom_eq (x y : Nat) (line : Strip) :
    geom x y line = if x < 32 ∧ y < 64 ∧ lineOf x = line then some (ledIndex x y) else none := by
  unfold geom
  simp only [matrixW, matrixH, panel]
  split
  case isTrue hout => rw [if_neg (by omega)]
  case isFalse hin =>
    have hx : x < 32 := by omega
    have hy : y < 64 := by omega
    simp only [ne_eq, div_eq_expectedColumn_iff hx, hx, hy, true_and, ite_not]
    congr 2
    unfold ledIndex snake
    split <;> split <;> omega

theorem geom_of_own_line {x y : Nat} {line : Strip} (hx : x < 32) (hy : y < 64) (hline : lineOf x = line) :
    geom x y line = some (ledIndex x y) := by
  rw [geom_eq, if_pos ⟨hx, hy, hline⟩]

theorem geom_eq_none {x y : Nat} {line : Strip} (h : ¬ (x < 32 ∧ y < 64 ∧ lineOf x = line)) : geom x y line = none := by
  rw [geom_eq, if_neg h]

/-- What an answer of the transform says of its arguments. -/
theorem geom_eq_some {x y i : Nat} {line : Strip} (h : geom x y line = some i) :
    x < 32 ∧ y < 64 ∧ lineOf x = line ∧ ledIndex x y = i := by
  rw [geom_eq, Option.ite_none_right_eq_some] at h
  obtain ⟨⟨hx, hy, hline⟩, hi⟩ := h
  exact ⟨hx, hy, hline, Option.some.inj hi⟩

/-! ### The inverse map -/

theorem expectedColumn_lt (st : Strip) : expectedColumn st < 2 := by
  cases st <;> decide

theorem pixelAt_fst (st : Strip) (i : Nat) : (pixelAt st i).1 = snake (i % 256 / 16) (i % 16) + 16 * expectedColumn st := by
  cases st <;> rfl

theorem pixelAt_snd (st : Strip) (i : Nat) : (pixelAt st i).2 = 16 * (i / 256) + i % 256 / 16 := rfl

theorem pixelAt_fst_mod (st : Strip) (i : Nat) : (pixelAt st i).1 % 16 = snake (i % 256 / 16) (i % 16) := by
  rw [pixelAt_fst, Nat.add_mul_mod_self_left, Nat.mod_eq_of_lt (snake_lt _ _)]

theorem pixelAt_fst_div (st : Strip) (i : Nat) : (pixelAt st i).1 / 16 = expectedColumn st := by
  have hk := snake_lt (i % 256 / 16) i
  rw [pixelAt_fst]
  omega

theorem pixelAt_fst_lt (st : Strip) (i : Nat) : (pixelAt st i).1 < 32 := by
  have hcol := pixelAt_fst_div st i
  have hlt := expectedColumn_lt st
  omega

theorem pixelAt_snd_lt (st : Strip) {i : Nat} (hi : i < 1024) : (pixelAt st i).2 < 64 := by
  rw [pixelAt_snd]
  omega

theorem lineOf_pixelAt (st : Strip) (i : Nat) : lineOf (pixelAt st i).1 = st :=
  (div_eq_expectedColumn_iff (pixelAt_fst_lt st i) st).1 (pixelAt_fst_div st i)

/-- The transform's index of the position that the inverse map gives. -/
theorem ledIndex_pixelAt (st : Strip) (i : Nat) : ledIndex (pixelAt st i).1 (pixelAt st i).2 = i := by
  have hrow : (pixelAt st i).2 % 16 = i % 256 / 16 := by rw [pixelAt_snd]; omega
  have hpanel : (pixelAt st i).2 / 16 = i / 256 := by rw [pixelAt_snd]; omega
  unfold ledIndex
  rw [pixelAt_fst_mod, hrow, hpanel, snake_snake]
  omega

/-- The inverse map's position of the index that the transform gives. -/
theorem pixelAt_ledIndex {x : Nat} (hx : x < 32) (y : Nat) : pixelAt (lineOf x) (ledIndex x y) = (x, y) := by
  have hk := snake_lt (y % 16) x
  have hpanel : ledIndex x y / 256 = y / 16 := by unfold ledIndex; omega
  have hrow : ledIndex x y % 256 / 16 = y % 16 := by unfold ledIndex; omega
  have hplace : ledIndex x y % 16 = snake (y % 16) (x % 16) := by unfold ledIndex; omega
  have hcol := (div_eq_expectedColumn_iff hx _).2 rfl
  apply Prod.ext
  · rw [pixelAt_fst, hrow, hplace, snake_snake, ← hcol]
    exact Nat.mod_add_div x 16
  · rw [pixelAt_snd, hpanel, hrow]
    exact Nat.div_add_mod y 16

/-- The inverse map's position is the one that the transform sends to an LED (R173). -/
theorem geom_eq_some_iff (x y : Nat) (st : Strip) {i : Nat} (hi : i < 1024) : geom x y st = some i ↔ (x, y) = pixelAt st i := by
  constructor
  · intro h
    obtain ⟨hx, -, rfl, rfl⟩ := geom_eq_some h
    exact (pixelAt_ledIndex hx y).symm
  · intro h
    obtain ⟨hx, hy⟩ := Prod.ext_iff.1 h
    dsimp only at hx hy
    rw [hx, hy, geom_of_own_line (pixelAt_fst_lt st i) (pixelAt_snd_lt st hi) (lineOf_pixelAt st i), ledIndex_pixelAt]

/-- Settles O34: the inverse map undoes the closed form on both sides. -/
theorem inverseMapInvertsGeom : Obligations.InverseMapInvertsGeom :=
  fun st i hi => ⟨pixelAt_fst_lt st i, pixelAt_snd_lt st hi, lineOf_pixelAt st i, (geom_eq_some_iff _ _ st hi).2 rfl,
    fun x y => (geom_eq_some_iff x y st hi).1⟩

/-- Settles O31: the transform inside the matrix, on the line of the position. -/
theorem geomClosedForm : Obligations.GeomClosedForm :=
  fun _ _ hx hy => ⟨rfl, geom_of_own_line hx hy rfl⟩

/-- Settles O32: whatever misses one of the conditions of an answer gets none, and an answer is a closed form below 1024. -/
theorem geomRejectsTheWrongLine : Obligations.GeomRejectsTheWrongLine := by
  unfold Obligations.GeomRejectsTheWrongLine
  refine ⟨fun x y line hout => geom_eq_none (by omega), fun x y line _ _ hline => geom_eq_none fun ⟨_, _, h⟩ => hline h.symm, ?_⟩
  intro x y line i h
  obtain ⟨-, hy, -, rfl⟩ := geom_eq_some h
  exact ledIndex_lt x hy

/-! ### Logical positions as numbers -/

/-- The number `p` of the logical pixel that an LED shows: row `p / 32`, column `p % 32` (R169, Step 3). -/
def shownAt (st : Strip) (i : Nat) : Nat := 32 * (pixelAt st i).2 + (pixelAt st i).1

theorem shownAt_lt (st : Strip) {i : Nat} (hi : i < 1024) : shownAt st i < 2048 := by
  have hx := pixelAt_fst_lt st i
  have hy := pixelAt_snd_lt st hi
  unfold shownAt
  omega

theorem shownAt_mod (st : Strip) (i : Nat) : shownAt st i % 32 = (pixelAt st i).1 := by
  have hx := pixelAt_fst_lt st i
  unfold shownAt
  omega

theorem shownAt_div (st : Strip) (i : Nat) : shownAt st i / 32 = (pixelAt st i).2 := by
  have hx := pixelAt_fst_lt st i
  unfold shownAt
  omega

/-- An LED shows the one logical pixel that the transform sends to it. -/
theorem geom_eq_some_iff_shownAt (p : Nat) (st : Strip) {i : Nat} (hi : i < 1024) :
    geom (p % 32) (p / 32) st = some i ↔ p = shownAt st i := by
  rw [geom_eq_some_iff _ _ st hi]
  constructor
  · intro h
    unfold shownAt
    rw [← h]
    exact (Nat.div_add_mod p 32).symm
  · rintro rfl
    rw [shownAt_mod, shownAt_div]

theorem lineOf_shownAt (st : Strip) (i : Nat) : lineOf (shownAt st i % 32) = st := by
  rw [shownAt_mod, lineOf_pixelAt]

/-- Every logical pixel has an LED on its own line. -/
theorem exists_led {p : Nat} (hp : p < 2048) : ∃ i < 1024, geom (p % 32) (p / 32) (lineOf (p % 32)) = some i :=
  ⟨ledIndex (p % 32) (p / 32), ledIndex_lt _ (by omega), geom_of_own_line (by omega) (by omega) rfl⟩

/-- Settles O33: a position's LED is its closed form, and an LED's position is that of the inverse map. -/
theorem lineMapIsBijective : Obligations.LineMapIsBijective := by
  unfold Obligations.LineMapIsBijective
  refine ⟨fun p hp => ⟨exists_led hp, fun line hline => geom_eq_none fun ⟨_, _, h⟩ => hline h.symm⟩, fun st i hi => ?_⟩
  exact ⟨shownAt st i, shownAt_lt st hi, ⟨lineOf_shownAt st i, (geom_eq_some_iff_shownAt _ st hi).2 rfl⟩,
    fun q _ _ => (geom_eq_some_iff_shownAt q st hi).1⟩

end Sys2Proof.Machine
end

section
/-! The renderers of both dialects (42_pixel_mapper.md R161, R162, R164, R169, R170): `Render1` pixel by pixel and as a count, `Render8` pixel by
pixel, and the pixel writes and bit reads below them. -/

namespace Sys2Proof.Machine

/-! ### Render1 -/

/-- Only the logical pixel that an LED shows can light it. -/
theorem lights_iff (bm : Vector Byte bitmapLen) (st : Strip) {i : Nat} (hi : i < 1024) (p : Nat) :
    lights bm st i p ↔ bitmapBit bm p = true ∧ p = shownAt st i := by
  unfold lights
  rw [geom_eq_some_iff_shownAt p st hi]
  constructor
  · rintro ⟨hbit, -, hp⟩
    exact ⟨hbit, hp⟩
  · rintro ⟨hbit, rfl⟩
    exact ⟨hbit, lineOf_shownAt st i, rfl⟩

/-- An LED shows the bit of its logical pixel (R169, R173). -/
theorem pixel_render1_shownAt (bm : Vector Byte bitmapLen) (fb : FrameBuffer) (st : Strip) {i : Nat} (hi : i < 1024) :
    (render1 bm fb).pixel st i = some (if bitmapBit bm (shownAt st i) = true then white else black) := by
  obtain ⟨hlit, hdark⟩ := pixel_render1 bm fb st i hi
  split
  case isTrue hbit => exact hlit ⟨_, shownAt_lt st hi, (lights_iff bm st hi _).2 ⟨hbit, rfl⟩⟩
  case isFalse hbit =>
    refine hdark fun p _ hl => ?_
    obtain ⟨hp, rfl⟩ := (lights_iff bm st hi p).1 hl
    exact hbit hp

/-- Settles O35: an LED's pixel by the logical pixel it shows. -/
theorem render1ShowsTheBitmap : Obligations.Render1ShowsTheBitmap :=
  fun bm fb st _ hi => pixel_render1_shownAt bm fb st hi

/-! ### The white pixels of `Render1` -/

/-- The logical pixels that a line shows, in the order of its LEDs. -/
def shownOn (st : Strip) : List Nat := (List.range 1024).map (shownAt st)

theorem strip_render1 (bm : Vector Byte bitmapLen) (fb : FrameBuffer) (st : Strip) :
    (render1 bm fb).strip st = (shownOn st).map fun p => if bitmapBit bm p = true then white else black := by
  apply List.ext_getElem?
  intro i
  by_cases hi : i < 1024
  · exact (pixel_render1_shownAt bm fb st hi).trans (by simp [shownOn, hi])
  · exact (pixel_none (render1_wf bm fb) st (Nat.not_lt.1 hi)).trans (by simp [shownOn, Nat.not_lt.1 hi])

theorem countP_white_strip_render1 (bm : Vector Byte bitmapLen) (fb : FrameBuffer) (st : Strip) :
    ((render1 bm fb).strip st).countP (· == white) = (shownOn st).countP (bitmapBit bm) := by
  rw [strip_render1, List.countP_map]
  congr 1
  funext p
  cases h : bitmapBit bm p
  · simp [h, black, white]
  · simp [h]

theorem mem_shownOn {st : Strip} {p : Nat} : p ∈ shownOn st ↔ p < 2048 ∧ lineOf (p % 32) = st := by
  simp only [shownOn, List.mem_map, List.mem_range]
  constructor
  · rintro ⟨i, hi, rfl⟩
    exact ⟨shownAt_lt st hi, lineOf_shownAt st i⟩
  · rintro ⟨hp, rfl⟩
    obtain ⟨i, hi, hgeom⟩ := exists_led hp
    exact ⟨i, hi, ((geom_eq_some_iff_shownAt p _ hi).1 hgeom).symm⟩

/-- No line shows a logical pixel twice: the transform gives the LED back. -/
theorem shownOn_nodup (st : Strip) : (shownOn st).Nodup := by
  refine List.Nodup.map_on (fun i hi j hj hij => ?_) List.nodup_range
  have hgi := (geom_eq_some_iff_shownAt _ st (List.mem_range.1 hi)).2 rfl
  have hgj := (geom_eq_some_iff_shownAt _ st (List.mem_range.1 hj)).2 rfl
  rw [hij] at hgi
  exact Option.some.inj (hgi.symm.trans hgj)

theorem shownOn_disjoint : List.Disjoint (shownOn .left) (shownOn .right) := by
  intro p hl hr
  have hboth := (mem_shownOn.1 hl).2.symm.trans (mem_shownOn.1 hr).2
  cases hboth

/-- The two lines together show each of the 2048 logical pixels once (R171). -/
theorem shownOn_perm_range : List.Perm (shownOn .left ++ shownOn .right) (List.range npix) := by
  rw [List.perm_ext_iff_of_nodup (List.nodup_append'.2 ⟨shownOn_nodup _, shownOn_nodup _, shownOn_disjoint⟩) List.nodup_range]
  intro p
  rw [List.mem_append, mem_shownOn, mem_shownOn, List.mem_range, ← and_or_left]
  exact and_iff_left (by cases lineOf (p % 32) <;> simp)

/-- Settles O36: the white pixels of each line are the set bits it shows, and the lines share the logical pixels out between them. -/
theorem render1LightsAsManyPixelsAsBits : Obligations.Render1LightsAsManyPixelsAsBits := by
  unfold Obligations.Render1LightsAsManyPixelsAsBits
  intro bm fb
  calc (render1 bm fb).whites
      = ((render1 bm fb).strip .left).countP (· == white) + ((render1 bm fb).strip .right).countP (· == white) := by
        rw [List.countP_eq_length_filter, List.countP_eq_length_filter]
        rfl
    _ = (shownOn .left).countP (bitmapBit bm) + (shownOn .right).countP (bitmapBit bm) := by
        rw [countP_white_strip_render1, countP_white_strip_render1]
    _ = (List.range npix).countP (bitmapBit bm) := by
        rw [← List.countP_append, shownOn_perm_range.countP_eq]
    _ = bitsSet bm := List.countP_eq_length_filter

/-! ### Render8 -/

/-- Settles O37: the strips after `Render8` pixel by pixel, with both intensities inside the payload. -/
theorem render8SplitsTheIntensities : Obligations.Render8SplitsTheIntensities := by
  unfold Obligations.Render8SplitsTheIntensities
  intro g fb i hi
  have hleft := pixel_render8 g fb .left i
  have hright := pixel_render8 g fb .right i
  rw [if_pos hi, payloadByte_eq g (show i < 2048 by omega)] at hleft
  rw [if_pos hi, payloadByte_eq g (show 1024 + i < 2048 by omega)] at hright
  exact ⟨hleft, hright⟩

/-! ### Pixel writes and bit reads -/

/-- Settles O27: what a pixel reads as after a write, at the written place, elsewhere and for an index outside the strip. -/
theorem setPixelWritesInBoundsOnly : Obligations.SetPixelWritesInBoundsOnly := by
  unfold Obligations.SetPixelWritesInBoundsOnly
  intro fb st i p hfb
  refine ⟨fun hi => pixel_setPixel_same hfb st hi p, fun st' j hother => ?_, fun hi => setPixel_out hi fb st p⟩
  rw [pixel_setPixel hfb, if_neg]
  rintro ⟨rfl, rfl, -⟩
  exact hother.elim (absurd rfl) (absurd rfl)

/-- Settles O28: the cleared strips are the blank frame buffer. -/
theorem clearStripsBlackens : Obligations.ClearStripsBlackens :=
  fun _ st i hi => (pixel_blank st i).trans (if_pos hi)

/-- Settles O30: the byte that holds the bit is inside the bitmap, and its bit is its value shifted down to the parity. -/
theorem bitmapBitIsMsbFirst : Obligations.BitmapBitIsMsbFirst := by
  unfold Obligations.BitmapBitIsMsbFirst
  intro bm p hp
  unfold bitmapBit
  rw [payloadByte_eq bm (show p / 8 < 256 by omega), BitVec.getLsbD, Nat.testBit_eq_decide_div_mod_eq]

end Sys2Proof.Machine
end

section
/-! The events of the loop and of the peer one by one (43_control_loop.md R200 to R207, R211): the arrival, the overflow guard in its phase and before a
byte, the byte step of the drain, the `STALE` phase. One equation per case of each, and the single-event rules read off them. -/

namespace Sys2Proof.Machine

/-! ### The arrival (R201) -/

theorem arrive_of_room {s : State} (h : s.rx.length < s.cfg.rxCap) (b : Byte) : arrive b s = s.setRx (s.rx ++ [b]) := if_pos h

theorem arrive_of_full {s : State} (h : s.cfg.rxCap ≤ s.rx.length) (b : Byte) : arrive b s = s := if_neg (Nat.not_lt.2 h)

/-- An arrival changes the FIFO at most. -/
theorem exists_arrive_eq_setRx (b : Byte) (s : State) : ∃ q, arrive b s = s.setRx q := by
  rcases Nat.lt_or_ge s.rx.length s.cfg.rxCap with hroom | hfull
  · exact ⟨_, arrive_of_room hroom b⟩
  · exact ⟨s.rx, arrive_of_full hfull b⟩

/-- Settles O38: the two cases of an arrival. -/
theorem arrivalQueuesOrIsLost : Obligations.ArrivalQueuesOrIsLost :=
  fun b _ => ⟨fun hroom => arrive_of_room hroom b, fun hfull => arrive_of_full hfull b⟩

/-- Settles O39: the peer's step is an arrival at the state whose input is taken, and the coming move says which state that is. -/
theorem peerStepIsAnArrival : Obligations.PeerStepIsAnArrival := by
  unfold Obligations.PeerStepIsAnArrival
  intro s dt b more hwf hcoming
  rw [step_arrive hwf hcoming, takeInput_of_coming hcoming]
  rfl

/-! ### The overflow guard (R203, R204, R211) -/

theorem overflowed_eq_false_iff {s : State} : s.overflowed = false ↔ s.cfg.dialect = .d1 ∨ s.rx.length ≤ 4102 := by
  rw [← Bool.not_eq_true, overflowed_iff]
  cases s.cfg.dialect <;> simp

theorem guardStep_of_overflowed {s : State} (h : s.overflowed = true) : guardStep s = (discardPending s).setPhase .drain := by
  rw [guardStep, if_pos h]

theorem guardStep_of_not_overflowed {s : State} (h : s.overflowed = false) : guardStep s = s.setPhase .drain := by
  simp [guardStep, h]

theorem byteGuard_of_overflowed {s : State} (h : s.overflowed = true) : byteGuard s = (discardPending s).setPhase .stale := if_pos h

theorem byteGuard_of_not_overflowed {s : State} (h : s.overflowed = false) : byteGuard s = s.passGuard := by
  simp [byteGuard, h]

/-- A discard empties the FIFO and resets the framer, and nothing else changes but the phase that follows it. -/
theorem framerResetOf_discardPending (p : Phase) (s : State) :
    FramerResetOf { s with rx := [], phase := p } ((discardPending s).setPhase p) := ⟨rfl, rfl, rfl, rfl⟩

/-- Settles O42: the guard step with and without an overflow. -/
theorem overflowGuardDiscardsAll : Obligations.OverflowGuardDiscardsAll := by
  unfold Obligations.OverflowGuardDiscardsAll
  refine fun s => ⟨fun hd2 hlong => ?_, fun hcalm => guardStep_of_not_overflowed (overflowed_eq_false_iff.2 hcalm)⟩
  rw [guardStep_of_overflowed (overflowed_iff.2 ⟨hd2, hlong⟩)]
  exact framerResetOf_discardPending .drain s

/-! ### The byte step of the drain (R204, R205) -/

theorem checkDue_eq_false_iff {s : State} :
    s.checkDue = false ↔ (s.cfg.guardPerByte = true → s.cfg.dialect = .d2 → s.guardChecked = true) := by
  rw [← Bool.not_eq_true, checkDue_iff]
  simp

theorem drainStep_byte {s t : State} {b : Byte} {rest : List Byte} (hdue : s.checkDue = false) (hrx : s.rx = b :: rest)
    (h : byteStep b (s.pop rest) = .next t) : drainStep s = .next (afterByte s t) := by
  rw [drainStep_cons hdue hrx, h]

theorem drainStep_fault {s : State} {f : Fault} {b : Byte} {rest : List Byte} (hdue : s.checkDue = false) (hrx : s.rx = b :: rest)
    (h : byteStep b (s.pop rest) = .fault f) : drainStep s = .fault f := by
  rw [drainStep_cons hdue hrx, h]

/-- The phase ends after a byte exactly where the build has it so and the byte has emitted a frame (R205). -/
theorem afterByte_eq (s t : State) :
    afterByte s t = if s.cfg.drainStopsAfterFrame = true ∧ s.sink.length < t.sink.length then t.setPhase .stale else t := by
  simp [afterByte, emittedFrame]

/-- Settles O43: in dialect 1 nothing overflows and no check is due. -/
theorem dialect1HasNoGuard : Obligations.Dialect1HasNoGuard := by
  unfold Obligations.Dialect1HasNoGuard
  intro s hd1
  have hdue : s.checkDue = false := checkDue_eq_false_iff.2 fun _ hd2 => nomatch hd1.symm.trans hd2
  exact ⟨guardStep_of_not_overflowed (overflowed_eq_false_iff.2 (.inl hd1)), fun _ _ _ hrx hstep => drainStep_byte hdue hrx hstep⟩

/-- Settles O44: a check that is due, with and without an overflow, and the byte step where none is due. -/
theorem guardBeforeEachByteIfBuilt : Obligations.GuardBeforeEachByteIfBuilt := by
  unfold Obligations.GuardBeforeEachByteIfBuilt
  refine fun s hd2 => ⟨fun hbuilt hunchecked hlong => ?_, fun hbuilt hunchecked hrx hshort => ?_, fun hpassed b rest t hrx hstep => ?_⟩
  · have hrx : s.rx ≠ [] := List.ne_nil_of_length_pos (by omega)
    refine ⟨drainStep_check (checkDue_iff.2 ⟨hbuilt, hd2, hunchecked⟩) hrx, ?_⟩
    rw [byteGuard_of_overflowed (overflowed_iff.2 ⟨hd2, hlong⟩)]
    exact framerResetOf_discardPending .stale s
  · exact ⟨drainStep_check (checkDue_iff.2 ⟨hbuilt, hd2, hunchecked⟩) hrx,
      byteGuard_of_not_overflowed (overflowed_eq_false_iff.2 (.inr hshort))⟩
  · have hdue : s.checkDue = false := checkDue_eq_false_iff.2 fun hbuilt _ => hpassed.resolve_left (by simp [hbuilt])
    exact drainStep_byte hdue hrx hstep

/-- Settles O40: taking the input changes nothing that the drain's tests or the decoder's context read, so the step is the byte step at the popped
state. -/
theorem drainStepRunsTheDecodedInstruction : Obligations.DrainStepRunsTheDecodedInstruction := by
  unfold Obligations.DrainStepRunsTheDecodedInstruction
  intro s u dt b more rest hwf hcoming hdrain hrx hpassed hu
  have hpop : u = s.takeInput.pop rest := by rw [hu, takeInput_of_coming hcoming]; rfl
  have hexec : exec (decodeByte ⟨s.cfg.dialect, s.pstate, s.count, s.ptype⟩ b) u = byteStep b (s.takeInput.pop rest) := by
    rw [hpop]; rfl
  have hdue : s.takeInput.checkDue = false := checkDue_eq_false_iff.2 hpassed
  rw [step_loop hwf hcoming, loopStep_drain (s := s.takeInput) hdrain, hexec]
  exact ⟨fun t ht => (drainStep_byte hdue hrx ht).trans (congrArg _ (afterByte_eq _ t)), fun f hf => drainStep_fault hdue hrx hf⟩

/-! ### The `STALE` phase (R206) -/

theorem staleStep_of_d2 {s : State} (h : s.cfg.dialect = .d2) : staleStep s = (staleCheck s).setPhase .yield := by
  rw [staleStep, if_pos h]

theorem staleStep_of_d1 {s : State} (h : s.cfg.dialect = .d1) : staleStep s = s.setPhase .yield := by
  simp [staleStep, h]

/-- Settles O46: the phase's step in each dialect. -/
theorem stalePhaseByDialect : Obligations.StalePhaseByDialect := fun _ => ⟨staleStep_of_d2, staleStep_of_d1⟩

end Sys2Proof.Machine
end

section
/-! What a step does to the phase (43_control_loop.md R202), and that an empty FIFO leaves a packet in progress where it is (R210). -/

namespace Sys2Proof.Machine

/-! ### The phase -/

@[simp] theorem guardStep_phase (s : State) : (guardStep s).phase = .drain := rfl

@[simp] theorem staleStep_phase (s : State) : (staleStep s).phase = .yield := rfl

/-- The drain stays after a check that lets its byte pass, and ends after a discard (R205). -/
theorem byteGuard_phase {s : State} (h : s.phase = .drain) : (byteGuard s).phase = .drain ∨ (byteGuard s).phase = .stale := by
  rcases byteGuard_cases s with ⟨-, he⟩ | ⟨-, he⟩ <;> rw [he]
  · exact .inr rfl
  · exact .inl h

theorem afterByte_phase {s t : State} (h : t.phase = .drain) : (afterByte s t).phase = .drain ∨ (afterByte s t).phase = .stale := by
  rw [afterByte_eq]
  split
  · exact .inr rfl
  · exact .inl h

/-- The phases that may follow a phase in one step of the loop (R202). -/
def Phase.next : Phase → List Phase
  | .guard => [.drain]
  | .drain => [.drain, .stale]
  | .stale => [.yield]
  | .yield => [.guard]

theorem loopStep_phase {s t : State} (h : loopStep s = .next t) : t.phase ∈ s.phase.next := by
  obtain ⟨hp, rfl⟩ | ⟨hp, -, rfl⟩ | ⟨hp, -, -, rfl⟩ | ⟨b, rest, u, hp, -, -, hu, rfl⟩ | ⟨hp, rfl⟩ | ⟨hp, rfl⟩ := loopStep_cases h <;>
    rw [hp]
  · simp [Phase.next]
  · simp [Phase.next]
  · simpa [Phase.next] using byteGuard_phase hp
  · obtain ⟨-, -, hphase, -⟩ := byteStep_frame hu
    simpa [Phase.next] using afterByte_phase (hphase.trans hp)
  · simp [Phase.next]
  · simp [Phase.next]

/-- Settles O48: an arrival changes the FIFO at most, and a step of the loop moves to a following phase. -/
theorem phasesComeInOrder : Obligations.PhasesComeInOrder := by
  unfold Obligations.PhasesComeInOrder
  intro s t h
  obtain ⟨-, ⟨dt, b, hmove, rfl⟩ | ⟨dt, hmove, hloop⟩⟩ := step_cases h <;> rw [hmove]
  · obtain ⟨q, hq⟩ := exists_arrive_eq_setRx b s.takeInput
    rw [hq]
    exact ⟨fun _ _ _ => rfl, fun _ he => nomatch he⟩
  · have hnext : t.phase ∈ s.phase.next := loopStep_phase (s := s.takeInput) hloop
    refine ⟨fun _ _ he => (nomatch he), fun _ _ => ⟨fun hp => ?_, fun hp => ?_, fun hp => ?_, fun hp => ?_⟩⟩ <;>
      simpa [hp, Phase.next] using hnext

/-! ### A parked packet (R210) -/

/-- The framer registers and the packet buffer (R22 to R25). -/
def State.framer (s : State) : PState × Nat × Option PType × Memory := (s.pstate, s.count, s.ptype, s.pkt)

theorem staleStep_framer (s : State) : (staleStep s).framer = s.framer := by
  unfold staleStep
  split
  · obtain ⟨-, hpstate, hcount, hptype, hpkt, -⟩ := staleCheck_frame s
    simp [State.framer, hpstate, hcount, hptype, hpkt]
  · rfl

/-- With nothing queued there is no overflow, no check before a byte and no byte to step: no event of the loop touches the framer. -/
theorem loopStep_framer_of_rx_nil {s t : State} (hrx : s.rx = []) (h : loopStep s = .next t) : t.framer = s.framer := by
  obtain ⟨-, rfl⟩ | ⟨-, -, rfl⟩ | ⟨-, hne, -⟩ | ⟨b, rest, -, -, hcons, -⟩ | ⟨-, rfl⟩ | ⟨-, rfl⟩ := loopStep_cases h
  · rw [guardStep_of_not_overflowed (overflowed_eq_false_iff.2 (.inr (by simp [hrx])))]
    rfl
  · rfl
  · exact absurd hrx hne
  · cases hrx.symm.trans hcons
  · exact staleStep_framer s
  · rfl

theorem step_framer_of_rx_nil {s t : State} (hrx : s.rx = []) (h : step s = .next t) : t.framer = s.framer := by
  obtain ⟨-, ⟨dt, b, -, rfl⟩ | ⟨dt, -, hloop⟩⟩ := step_cases h
  · obtain ⟨q, hq⟩ := exists_arrive_eq_setRx b s.takeInput
    rw [hq]
    rfl
  · exact loopStep_framer_of_rx_nil (s := s.takeInput) hrx hloop

/-- Settles O49: the parts of an unchanged framer. -/
theorem parkedPacketWaits : Obligations.ParkedPacketWaits :=
  fun _ _ hrx h => by simpa [State.framer] using step_framer_of_rx_nil hrx h

end Sys2Proof.Machine
end

section
/-! The loop never halts (43_control_loop.md R208, 60_exceptions.md R230): in a state of a run no part of a step faults, and between two steps of the
loop there are finitely many arrivals. -/

namespace Sys2Proof.Machine

/-! ### Every step answers a next state -/

/-- The one read that could fault does not: the byte that completes a packet of a run finds its whole payload in the buffer (R38, R111). -/
theorem dispatchPacket_answers {s : State} (h : s.Inv) (hp : s.pstate = .accumulating) (hlast : s.count + 1 = expTotal s.ptype) (b : Byte) :
    ∃ t, dispatchPacket (s.accept s.count b) = .next t := by
  obtain ⟨-, -, htype⟩ := (countFits_accumulating hp).1 h.count
  cases hd : s.cfg.dialect with
  | d1 =>
    rw [hd] at htype
    have hcount : s.count = 3 + 255 := by rw [htype] at hlast; exact Nat.succ.inj hlast
    obtain ⟨bm, -, -, hpay⟩ := payload_of_completion h.pkt hcount b
    exact ⟨_, dispatchPacket_led1 htype hpay⟩
  | d2 =>
    rw [hd] at htype
    have hcount : s.count = 3 + 2047 := by rw [htype] at hlast; exact Nat.succ.inj hlast
    obtain ⟨g, -, -, hpay⟩ := payload_of_completion h.pkt hcount b
    exact ⟨_, dispatchPacket_led8 htype hpay⟩

theorem byteStep_answers {s : State} (h : s.Inv) (b : Byte) : ∃ t, byteStep b s = .next t := by
  rcases byteStep_cases b s with ⟨-, -, hs⟩ | ⟨-, -, hs⟩ | ⟨-, -, hs⟩ | ⟨-, -, hs⟩ | ⟨-, -, -, hs⟩ | ⟨-, -, -, hs⟩ |
    ⟨-, -, -, hs⟩ | ⟨-, -, -, -, -, hs⟩ | ⟨-, -, -, hs⟩ | ⟨-, -, -, hs⟩ | ⟨-, -, hs⟩ | ⟨-, -, -, hs⟩ | ⟨hp, hlast, -, hs⟩
  iterate 12 · exact ⟨_, hs⟩
  · rw [hs]
    exact dispatchPacket_answers h hp hlast b

theorem drainStep_answers {s : State} (h : s.Inv) : ∃ t, drainStep s = .next t := by
  cases hrx : s.rx with
  | nil => exact ⟨_, drainStep_nil hrx⟩
  | cons b rest =>
    cases hdue : s.checkDue with
    | true => exact ⟨_, drainStep_check hdue (by simp [hrx])⟩
    | false =>
      obtain ⟨t, ht⟩ := byteStep_answers (pop_inv hrx h) b
      exact ⟨_, drainStep_byte hdue hrx ht⟩

theorem loopStep_answers {s : State} (h : s.Inv) : ∃ t, loopStep s = .next t := by
  cases hp : s.phase with
  | guard => exact ⟨_, loopStep_guard hp⟩
  | drain =>
    rw [loopStep_drain hp]
    exact drainStep_answers h
  | stale => exact ⟨_, loopStep_stale hp⟩
  | yield => exact ⟨_, loopStep_yield hp⟩

theorem step_answers {s : State} (h : s.Inv) : ∃ t, step s = .next t := by
  rcases hcoming : s.coming with ⟨dt | ⟨dt, b⟩, more⟩
  · rw [step_loop h.cfg hcoming]
    exact loopStep_answers (takeInput_inv h)
  · exact ⟨_, step_arrive h.cfg hcoming⟩

/-! ### The loop moves again (R208) -/

/-- After finitely many steps the next move is the loop's. -/
def State.ReachesLoop (s : State) : Prop := ∃ (n : Nat) (t : State) (dt : Nat), runSteps n s = .next t ∧ t.nextMove = .loop dt

theorem reachesLoop_of_loop {s : State} {dt : Nat} {more : List Move} (h : s.coming = (.loop dt, more)) : s.ReachesLoop :=
  ⟨0, s, dt, rfl, congrArg Prod.fst h⟩

theorem reachesLoop_of_step {s t : State} (hstep : step s = .next t) (h : t.ReachesLoop) : s.ReachesLoop := by
  obtain ⟨n, u, dt, hrun, hmove⟩ := h
  exact ⟨n + 1, u, dt, by rw [runSteps, hstep]; exact hrun, hmove⟩

/-- An arrival uses up its move, and it is answered in every admitted configuration. -/
theorem reachesLoop_of_arrive {s : State} {dt : Nat} {b : Byte} {more : List Move} (hwf : s.cfg.wf = true)
    (hcoming : s.coming = (.arrive dt b, more)) (h : ∀ t : State, t.cfg.wf = true → t.sched = more → t.ReachesLoop) : s.ReachesLoop := by
  obtain ⟨q, hq⟩ := exists_arrive_eq_setRx b s.takeInput
  refine reachesLoop_of_step (step_arrive hwf hcoming) ?_
  rw [hq]
  exact h _ hwf (congrArg Prod.snd hcoming)

/-- A step of the loop among the coming moves is reached, by induction on the moves before it. -/
theorem reachesLoop_of_mem_coming {s : State} {dt : Nat} {move : Move} {more : List Move} (hwf : s.cfg.wf = true)
    (hcoming : s.coming = (move, more)) (hloop : .loop dt ∈ move :: more) : s.ReachesLoop := by
  induction more generalizing s move with
  | nil =>
    obtain rfl := List.mem_singleton.1 hloop
    exact reachesLoop_of_loop hcoming
  | cons move' more ih =>
    cases move with
    | loop dt' => exact reachesLoop_of_loop hcoming
    | arrive dt' b =>
      have hloop' : .loop dt ∈ move' :: more := by simpa using hloop
      exact reachesLoop_of_arrive hwf hcoming fun t hwf' hsched => ih hwf' (coming_listed hsched) hloop'

/-- Where no move is listed, the round of free moves ends with a step of the loop (log 4, log 15). -/
theorem reachesLoop_of_sched_nil {s : State} (hwf : s.cfg.wf = true) (h : s.sched = []) : s.ReachesLoop := by
  have hloop : .loop (Config.freeAdvance s.freeIx) ∈ (freeRound s.freeIx).1 :: (freeRound s.freeIx).2 := by simp [freeRound_eq]
  exact reachesLoop_of_mem_coming hwf (coming_free h) hloop

/-- By induction on the listed moves: each is the loop's, or an arrival that uses it up. -/
theorem reachesLoop {s : State} (hwf : s.cfg.wf = true) : s.ReachesLoop := by
  induction hsched : s.sched generalizing s with
  | nil => exact reachesLoop_of_sched_nil hwf hsched
  | cons move more ih =>
    have hcoming := coming_listed hsched
    cases move with
    | loop dt => exact reachesLoop_of_loop hcoming
    | arrive dt b => exact reachesLoop_of_arrive hwf hcoming fun t hwf' ht => ih hwf' ht

/-- Settles O56: no part of a step of a run faults, and the moves before the loop's next one are finitely many arrivals. -/
theorem everyStepAnswersANextState : Obligations.EveryStepAnswersANextState :=
  fun _ h => ⟨step_answers h, reachesLoop h.cfg⟩

end Sys2Proof.Machine
end

section
/-! The staleness monitor (60_exceptions.md R236 to R239): the elapsed time, the check with and without a stale frame, and that at most one `Clear`
comes after a frame. -/

namespace Sys2Proof.Machine

/-! ### Elapsed time (R237) -/

theorem elapsed_stamp_of_unbounded {c : Config} (h : c.timeBits = none) (t d : Nat) : elapsed c (t + d) (stamp c t) = d := by
  simp [elapsed, stamp, h]

/-- Reducing both times modulo `2^n` does not change their difference modulo `2^n`. -/
theorem elapsed_stamp_of_bits {c : Config} {n : Nat} (h : c.timeBits = some n) (t d : Nat) :
    elapsed c (t + d) (stamp c t) = d % 2 ^ n := by
  have hdiff : (((t + d) % 2 ^ n : Nat) - (t % 2 ^ n : Nat) : Int) % (2 ^ n : Nat) = (d % 2 ^ n : Nat) := by
    rw [Int.natCast_mod, Int.natCast_mod, ← Int.sub_emod, Nat.cast_add, add_sub_cancel_left, Int.natCast_mod]
  simp only [elapsed, stamp, h, hdiff, Int.toNat_natCast]

/-- Settles O47: the elapsed time with and without a width. -/
theorem elapsedTimeWraps : Obligations.ElapsedTimeWraps :=
  fun _ t d => ⟨fun h => elapsed_stamp_of_unbounded h t d, fun _ h => elapsed_stamp_of_bits h t d⟩

/-! ### The check (R236) -/

theorem isStale_iff {s : State} : s.isStale = true ↔ ∃ t, s.lastFrame = some t ∧ 2000 < elapsed s.cfg s.now t := by
  unfold State.isStale
  cases s.lastFrame <;> simp

theorem staleCheck_of_stale {s : State} (h : s.isStale = true) :
    staleCheck s = { s with fb := FrameBuffer.blank, sink := s.sink ++ [.clear], lastFrame := none } := if_pos h

theorem staleCheck_of_not_stale {s : State} (h : ¬ s.isStale = true) : staleCheck s = s := if_neg h

theorem staleCheck_of_lastFrame_none {s : State} (h : s.lastFrame = none) : staleCheck s = s :=
  staleCheck_of_not_stale (by simp [isStale_iff, h])

/-- Settles O45: a stale frame is cleared and its time erased, so that no second check finds one; any other frame stays. -/
theorem staleCheckClearsOnce : Obligations.StaleCheckClearsOnce := by
  unfold Obligations.StaleCheckClearsOnce
  refine fun s => ⟨fun t hlast hold => ?_, fun t hlast hnew => ?_, staleCheck_of_lastFrame_none⟩
  · have hclear := staleCheck_of_stale (isStale_iff.2 ⟨t, hlast, hold⟩)
    exact ⟨hclear, staleCheck_of_lastFrame_none (by rw [hclear])⟩
  · exact staleCheck_of_not_stale (by simpa [isStale_iff, hlast] using hnew)

/-! ### At most one `Clear` after a frame (R238, R239) -/

/-- From the start of the sink, what follows a list of events follows a frame if the list ends with one. -/
theorem clearsFollowFrames_false_append (es es' : List SinkEvent) :
    clearsFollowFrames false (es ++ es') = (clearsFollowFrames false es && clearsFollowFrames (lastIsFrame es) es') := by
  rw [clearsFollowFrames_append]
  cases es <;> rfl

theorem lastIsFrame_append_emit (es : List SinkEvent) (fb : FrameBuffer) : lastIsFrame (es ++ [.emit fb]) = true := by
  simp [lastIsFrame]

theorem clearsFit_of_silent {s t : State} (h : s.clearsFit) (hcfg : t.cfg = s.cfg) (hsink : t.sink = s.sink)
    (hlast : t.lastFrame = s.lastFrame) : t.clearsFit := by
  unfold State.clearsFit
  rwa [hcfg, hsink, hlast]

/-- A frame may always be sent, and in dialect 2 its time may be recorded. -/
theorem clearsFit_of_emit {s t : State} {fb : FrameBuffer} (h : s.clearsFit) (hcfg : t.cfg = s.cfg)
    (hsink : t.sink = s.sink ++ [.emit fb]) (hlast : s.cfg.dialect = .d1 → t.lastFrame = s.lastFrame) : t.clearsFit := by
  obtain ⟨hclears, -, hd1⟩ := h
  unfold State.clearsFit
  rw [hcfg, hsink, clearsFollowFrames_false_append]
  refine ⟨by simp [hclears, clearsFollowFrames], fun _ => lastIsFrame_append_emit _ _, fun hd => ?_⟩
  obtain ⟨hnone, hnoclear⟩ := hd1 hd
  exact ⟨(hlast hd).trans hnone, by simpa using hnoclear⟩

/-- In dialect 2 a `Clear` may be sent while a time is recorded, for then the latest event is a frame, if the time is erased. -/
theorem clearsFit_of_clear {s t : State} (h : s.clearsFit) (hd2 : s.cfg.dialect = .d2) (hrecorded : s.lastFrame.isSome = true)
    (hcfg : t.cfg = s.cfg) (hsink : t.sink = s.sink ++ [.clear]) (hlast : t.lastFrame = none) : t.clearsFit := by
  obtain ⟨hclears, hframe, -⟩ := h
  unfold State.clearsFit
  rw [hcfg, hsink, hlast, hd2, clearsFollowFrames_false_append]
  exact ⟨by simp [hclears, hframe hrecorded, clearsFollowFrames], nofun, nofun⟩

theorem byteStep_clearsFit {b : Byte} {s t : State} (hstep : byteStep b s = .next t) (h : s.clearsFit) : t.clearsFit := by
  have hcfg := (byteStep_frame hstep).1
  rcases byteStep_frame_cases hstep with ⟨-, hsink, hlast⟩ | ⟨bm, rfl⟩ | ⟨g, hd2, rfl⟩
  · exact clearsFit_of_silent h hcfg hsink hlast
  · exact clearsFit_of_emit h hcfg rfl fun _ => rfl
  · exact clearsFit_of_emit h hcfg rfl fun hd1 => nomatch hd2.symm.trans hd1

theorem staleCheck_clearsFit {s : State} (hd2 : s.cfg.dialect = .d2) (h : s.clearsFit) : (staleCheck s).clearsFit := by
  by_cases hstale : s.isStale = true
  · obtain ⟨t, hlast, -⟩ := isStale_iff.1 hstale
    rw [staleCheck_of_stale hstale]
    exact clearsFit_of_clear h hd2 (by rw [hlast]; rfl) rfl rfl rfl
  · rwa [staleCheck_of_not_stale hstale]

theorem arrive_clearsFit (b : Byte) {s : State} (h : s.clearsFit) : (arrive b s).clearsFit := by
  obtain ⟨q, hq⟩ := exists_arrive_eq_setRx b s
  rw [hq]
  exact h

/-- Settles O59: only a byte step sends a frame, and only the check of dialect 2 sends a `Clear`, after which no time is recorded. -/
theorem stepKeepsOneClearPerFrame : Obligations.StepKeepsOneClearPerFrame :=
  fun _ _ hs hstep => step_keeps State.clearsFit
    (input := fun _ h => h)
    (arrival := fun b _ h => arrive_clearsFit b h)
    (phases := fun _ _ h => h)
    (pop := fun _ _ _ _ h => h)
    (checked := fun _ h => h)
    (discard := fun _ h => h)
    (bytes := fun _ _ _ hb h => byteStep_clearsFit hb h)
    (stale := fun _ hd2 h => staleCheck_clearsFit hd2 h) hstep hs

end Sys2Proof.Machine
end

section
/-! Bounded resynchronisation by filler (70_reset_and_hazards.md R265): in a run every byte ends the packet in progress or lengthens it, and no packet
is longer than `MAX_PKT`. -/

namespace Sys2Proof.Machine

theorem count_lt_maxPkt {s : State} (h : s.Inv) : s.count < maxPkt s.cfg.dialect := by
  have hmax := (maxPkt_bounds s.cfg.dialect).1
  cases hp : s.pstate with
  | awaitHeader0 => have hcount := ((countFits_awaitHeader0 hp).1 h.count).1; omega
  | awaitHeader1 => have hcount := ((countFits_awaitHeader1 hp).1 h.count).1; omega
  | awaitType => have hcount := ((countFits_awaitType hp).1 h.count).1; omega
  | accumulating => obtain ⟨hlt, hexp⟩ := count_lt_expTotal h hp; omega

/-- A byte returns the framer to its start, or is counted. -/
theorem byteStep_idle_or_counted {b : Byte} {s t : State} (h : s.Inv) (hstep : byteStep b s = .next t) :
    t.framerIdle ∨ t.count = s.count + 1 := by
  refine (byteStep_packet ⟨h.count, h.pkt⟩ hstep).imp_right fun ⟨⟨_, hfits⟩, hpkt⟩ => ?_
  have hbytes : t.packetBytes = s.packetBytes ++ [b] := by
    rw [State.packetBytes, hpkt, write_count h.pkt, cellsFrom_bytes]
  rw [← packetBytes_length hfits, hbytes, List.length_append, packetBytes_length h.pkt, List.length_singleton]

/-- Filler that would fill the packet buffer from the count on ends the packet in progress, and what is left of it is discarded. -/
theorem feed_filler {bs : List Byte} {s : State} (h : s.Inv) (hbs : ∀ b ∈ bs, b ≠ hdr0)
    (hlen : maxPkt s.cfg.dialect ≤ s.count + bs.length) : ∃ t, feed bs s = .next t ∧ t.pstate = .awaitHeader0 := by
  induction bs generalizing s with
  | nil => exact absurd hlen (Nat.not_le.2 (count_lt_maxPkt h))
  | cons b bs ih =>
    obtain ⟨-, hrest⟩ := List.forall_mem_cons.1 hbs
    obtain ⟨m, hstep⟩ := byteStep_answers h b
    rw [feed_cons, hstep]
    rcases byteStep_idle_or_counted h hstep with ⟨hp, -⟩ | hcount
    · exact ⟨m, nonHeaderDiscarded.2 bs m hp hrest, hp⟩
    · have hcfg : m.cfg = s.cfg := (byteStep_frame hstep).1
      rw [List.length_cons] at hlen
      exact ih (byteStep_inv hstep h) hrest (by rw [hcfg, hcount]; omega)

/-- Settles O26: whatever the count, as many bytes as a packet is long fill the packet buffer. -/
theorem fillerResynchronises : Obligations.FillerResynchronises :=
  fun _ _ h hbs hlen => feed_filler h hbs (Nat.le_add_left_of_le hlen)

end Sys2Proof.Machine
end

section
/-! The one refusal (93_implementation_defined.md I3, I6, I11): no part of a step refuses, in any state, so that a step refuses exactly where
it does not run, in a configuration the spec says to refuse. -/

namespace Sys2Proof.Machine

/-! ### No part of a step refuses -/

/-- A dispatch has a meaning in every state: at worst it faults on a payload byte that was never written (R38). -/
theorem dispatchPacket_ne_refused (s : State) (r : Refusal) : dispatchPacket s ≠ .refused r := by
  rcases dispatchPacket_cases s with ⟨_, -, -, hs⟩ | ⟨_, -, -, hs⟩ | hs <;> simp [hs]

theorem byteStep_ne_refused (b : Byte) (s : State) (r : Refusal) : byteStep b s ≠ .refused r := by
  rcases byteStep_cases b s with ⟨-, -, hs⟩ | ⟨-, -, hs⟩ | ⟨-, -, hs⟩ | ⟨-, -, hs⟩ | ⟨-, -, -, hs⟩ | ⟨-, -, -, hs⟩ |
    ⟨-, -, -, hs⟩ | ⟨-, -, -, -, -, hs⟩ | ⟨-, -, -, hs⟩ | ⟨-, -, -, hs⟩ | ⟨-, -, hs⟩ | ⟨-, -, -, hs⟩ | ⟨-, -, -, hs⟩ <;> rw [hs]
  iterate 12 · exact nofun
  · exact dispatchPacket_ne_refused _ r

theorem drainStep_ne_refused (s : State) (r : Refusal) : drainStep s ≠ .refused r := by
  cases hrx : s.rx with
  | nil => simp [drainStep_nil hrx]
  | cons b rest =>
    cases hdue : s.checkDue with
    | true => simp [drainStep_check hdue (by simp [hrx])]
    | false =>
      cases hbyte : byteStep b (s.pop rest) with
      | next t => simp [drainStep_byte hdue hrx hbyte]
      | fault f => simp [drainStep_fault hdue hrx hbyte]
      | refused r' => exact absurd hbyte (byteStep_ne_refused b _ r')

theorem loopStep_ne_refused (s : State) (r : Refusal) : loopStep s ≠ .refused r := by
  cases hp : s.phase with
  | guard => simp [loopStep_guard hp]
  | drain => simpa [loopStep_drain hp] using drainStep_ne_refused s r
  | stale => simp [loopStep_stale hp]
  | yield => simp [loopStep_yield hp]

theorem step_ne_refused {s : State} (hwf : s.cfg.wf = true) (r : Refusal) : step s ≠ .refused r := by
  rcases hcoming : s.coming with ⟨dt | ⟨dt, b⟩, more⟩
  · rw [step_loop hwf hcoming]
    exact loopStep_ne_refused _ r
  · simp [step_arrive hwf hcoming]

/-! ### The configurations the spec says to refuse -/

theorem wf_eq_false_iff {c : Config} : c.wf = false ↔ c.rxCap = 0 ∨ c.infoLines.getLast? ≠ some "OK" ∨ c.cntBits < 12 := by
  simp only [Config.wf, Bool.and_eq_false_iff, decide_eq_false_iff_not, beq_eq_false_iff_ne, Nat.not_le, Nat.lt_one_iff, or_assoc]

theorem step_of_not_wf {s : State} (hwf : s.cfg.wf = false) : step s = .refused .badConfig := by simp [step, hwf]

/-- Settles O57: an admitted configuration is never refused, and any other is refused before anything runs. -/
theorem refusedExactlyForABadConfiguration : Obligations.RefusedExactlyForABadConfiguration := by
  unfold Obligations.RefusedExactlyForABadConfiguration
  intro s r
  rw [← wf_eq_false_iff]
  cases hwf : s.cfg.wf with
  | true => simp [step_ne_refused hwf r]
  | false => simp [step_of_not_wf hwf, eq_comm]

end Sys2Proof.Machine
end
